-- ==== Sys2Proof/Word.lean ====
section
/-! DEFINITION. The word types of HBE: bytes, command words, 32-bit registers, symbols and bit-strings
(spec/00_scope.md R7 and section 7). -/

namespace Sys2Proof

/-- One byte, as sent on OUT and RSP (spec/20_memory.md R66, R67). -/
abbrev Byte := BitVec 8

/-- A command word, `CW = 16` bits (spec/00_scope.md R7, spec/30_encoding.md R90). -/
abbrev Word16 := BitVec 16

/-- A 32-bit register, count or weight, `WW = LW = 32` (spec/00_scope.md R7). -/
abbrev Word32 := BitVec 32

/-- A symbol, `SYMW = 8` bits, an unsigned integer 0..255 (spec/00_scope.md R7, spec/30_encoding.md R92). -/
abbrev Symbol := BitVec 8

/-- A bit-string: a finite sequence of bits in order of emission, `s[0]` first; not a number
(spec/00_scope.md section 7.2). -/
abbrev BitString := List Bool

end Sys2Proof
end

