-- ==== Sys2Proof/Config.lean ====
section
/-! DEFINITION. The parameters of HBE (spec/00_scope.md R7). Every one has a value in the spec but `HAS_TB`, which is an
argument of the model: it is held in State (log 1), and its reference value stands here. No free value is needed: the spec
says that no rule reads an unspecified value (spec/93_implementation_defined.md, list U). -/

namespace Sys2Proof.Config

/-- `NSYM = 2^SYMW`: the number of symbols, the size of `CT` and `FT` (spec/00_scope.md R7). -/
abbrev nsym : Nat := 256

/-- `MAXLEN = NSYM - 1`: the greatest code length, the capacity of `PATH` and of a `CT` entry (spec/00_scope.md R7). -/
abbrev maxLen : Nat := 255

/-- `NNODE = 2 NSYM - 1`: the capacity of the node memory (spec/00_scope.md R7). -/
abbrev nnode : Nat := 511

/-- `2^32 - 1`: the greatest value of `TOTAL` (spec/41_tree_builder.md R141) and of `BITLEN` (spec/20_memory.md R78). -/
abbrev maxCount : Word32 := 0xFFFFFFFF#32

/-- The number of the highest status register (spec/10_state.md R37, spec/30_encoding.md R94). -/
abbrev lastStatusReg : Nat := 10

/-- The reference value of the open parameter `HAS_TB` (spec/00_scope.md R7, spec/92_eei_decisions.md D21). -/
abbrev referenceHasTb : Bool := true

end Sys2Proof.Config
end

