-- ==== Sys2Proof/Syntax.lean ====
section
/-! DEFINITION. The sixteen commands of HBE, one constructor per row of spec/opcode_table.json
(spec/30_encoding.md R96). -/

namespace Sys2Proof

/-- A command with its operand (spec/30_encoding.md R96). `sym` is a format S operand (R92), `b` a format B operand
(R93), `r` a format R operand (R94). -/
inductive Instr where
  | nop
  | reset
  | rdsr (r : BitVec 8)
  | fclr
  | tab (sym : Symbol)
  | fget (sym : Symbol)
  | build
  | assign
  | ctclr
  | pclr
  | pbit (b : Bool)
  | ctset (sym : Symbol)
  | ctget (sym : Symbol)
  | enc (sym : Symbol)
  | pkbit (b : Bool)
  | flush
  deriving DecidableEq, Repr

end Sys2Proof
end

