-- ==== Sys2Proof/WellFormed.lean ====
section
/-! DEFINITION. Which commands a build of HBE has a legal word for: the register number of `RDSR` is at most 10
(spec/30_encoding.md R94), and a command of the TB unit needs that unit (spec/30_encoding.md R100). -/

namespace Sys2Proof

/-- The command is legal on a build with `HAS_TB = hasTb` (spec/30_encoding.md R98 clauses 4 and 5; the other clauses
cannot be broken by a term of `Instr`). -/
def Instr.wf (hasTb : Bool) : Instr → Bool
  | .rdsr r => decide (r.toNat ≤ Config.lastStatusReg)
  | .fclr => hasTb
  | .tab _ => hasTb
  | .fget _ => hasTb
  | .build => hasTb
  | .assign => hasTb
  | .nop => true
  | .reset => true
  | .ctclr => true
  | .pclr => true
  | .pbit _ => true
  | .ctset _ => true
  | .ctget _ => true
  | .enc _ => true
  | .pkbit _ => true
  | .flush => true

end Sys2Proof
end

