-- ==== Sys2Proof/Decode.lean ====
section
/-! DEFINITION. Decoding a 16-bit word, total, with every illegal word rejected under the name of the clause of
spec/30_encoding.md R98 it breaks, and the encoder written from the same table (R96). -/

namespace Sys2Proof

/-- Why a word is illegal: the clauses of spec/30_encoding.md R98, in its order. -/
inductive IllegalWhy where
  /-- Clause 1: `op` is not one of the sixteen values. -/
  | unassignedOp
  /-- Clause 2: format Z and `arg ≠ 0`. -/
  | argNotZero
  /-- Clause 3: format B and `arg ≥ 2`. -/
  | argNotBit
  /-- Clause 4: `RDSR` and `arg ≥ 11`. -/
  | noSuchRegister
  /-- Clause 5: a TB command and `HAS_TB = 0`. -/
  | noTreeBuilder
  deriving DecidableEq, Repr

/-- What `decode` answers: a command with its operand, or `Illegal` (spec/30_encoding.md R97). -/
inductive Decoded where
  | command (i : Instr)
  | illegal (why : IllegalWhy)
  deriving DecidableEq, Repr

/-- Whether a word decoded to a command, that is, is legal (spec/30_encoding.md R97). -/
def isCommand : Decoded → Bool
  | .command _ => true
  | .illegal _ => false

/-- The field `op`, bits 15..8 (spec/30_encoding.md R90). -/
def opField (w : Word16) : BitVec 8 := w.extractLsb' 8 8

/-- The field `arg`, bits 7..0 (spec/30_encoding.md R90). -/
def argField (w : Word16) : BitVec 8 := w.extractLsb' 0 8

/-- A word from its two fields (spec/30_encoding.md R90). -/
def mkWord (op arg : BitVec 8) : Word16 := op ++ arg

/-- Format Z: `arg` must be zero (spec/30_encoding.md R91). -/
def formatZ (arg : BitVec 8) (i : Instr) : Decoded :=
  if arg = 0#8 then .command i else .illegal .argNotZero

/-- Format S: `arg` is the symbol, every value legal (spec/30_encoding.md R92). -/
def formatS (arg : BitVec 8) (i : Symbol → Instr) : Decoded :=
  .command (i arg)

/-- Format B: `b = arg[0]`, and `arg[7:1]` must be zero (spec/30_encoding.md R93). -/
def formatB (arg : BitVec 8) (i : Bool → Instr) : Decoded :=
  if arg.toNat ≤ 1 then .command (i (arg.getLsbD 0)) else .illegal .argNotBit

/-- Format R: `r = arg`, legal up to 10 (spec/30_encoding.md R94). -/
def formatR (arg : BitVec 8) (i : BitVec 8 → Instr) : Decoded :=
  if arg.toNat ≤ Config.lastStatusReg then .command (i arg) else .illegal .noSuchRegister

/-- A command of the TB unit is illegal when `HAS_TB = 0`; the format is tested first (spec/30_encoding.md R97). -/
def ofTbUnit (hasTb : Bool) : Decoded → Decoded
  | .command i => if hasTb then .command i else .illegal .noTreeBuilder
  | .illegal why => .illegal why

/-- The opcode map (spec/30_encoding.md R96, R97). -/
def decodeFields (hasTb : Bool) (op arg : BitVec 8) : Decoded :=
  match op with
  | 0x00#8 => formatZ arg .nop
  | 0x01#8 => formatZ arg .reset
  | 0x02#8 => formatR arg .rdsr
  | 0x10#8 => ofTbUnit hasTb (formatZ arg .fclr)
  | 0x11#8 => ofTbUnit hasTb (formatS arg .tab)
  | 0x12#8 => ofTbUnit hasTb (formatS arg .fget)
  | 0x13#8 => ofTbUnit hasTb (formatZ arg .build)
  | 0x20#8 => ofTbUnit hasTb (formatZ arg .assign)
  | 0x21#8 => formatZ arg .ctclr
  | 0x22#8 => formatZ arg .pclr
  | 0x23#8 => formatB arg .pbit
  | 0x24#8 => formatS arg .ctset
  | 0x25#8 => formatS arg .ctget
  | 0x30#8 => formatS arg .enc
  | 0x40#8 => formatB arg .pkbit
  | 0x41#8 => formatZ arg .flush
  | _ => .illegal .unassignedOp

/-- `decode(w, HAS_TB)` of spec/30_encoding.md R97. It reads no engine state. -/
def decode (hasTb : Bool) (w : Word16) : Decoded :=
  decodeFields hasTb (opField w) (argField w)

/-- The `op` of a command (spec/30_encoding.md R96). -/
def opOf : Instr → BitVec 8
  | .nop => 0x00#8
  | .reset => 0x01#8
  | .rdsr _ => 0x02#8
  | .fclr => 0x10#8
  | .tab _ => 0x11#8
  | .fget _ => 0x12#8
  | .build => 0x13#8
  | .assign => 0x20#8
  | .ctclr => 0x21#8
  | .pclr => 0x22#8
  | .pbit _ => 0x23#8
  | .ctset _ => 0x24#8
  | .ctget _ => 0x25#8
  | .enc _ => 0x30#8
  | .pkbit _ => 0x40#8
  | .flush => 0x41#8

/-- The `arg` of a format B command: bit 0 is the bit, the rest zero (spec/30_encoding.md R93). -/
def bitArg (b : Bool) : BitVec 8 := if b then 0x01#8 else 0x00#8

/-- The `arg` of a command (spec/30_encoding.md R91 to R96). -/
def argOf : Instr → BitVec 8
  | .rdsr r => r
  | .tab sym => sym
  | .fget sym => sym
  | .ctset sym => sym
  | .ctget sym => sym
  | .enc sym => sym
  | .pbit b => bitArg b
  | .pkbit b => bitArg b
  | .nop => 0x00#8
  | .reset => 0x00#8
  | .fclr => 0x00#8
  | .build => 0x00#8
  | .assign => 0x00#8
  | .ctclr => 0x00#8
  | .pclr => 0x00#8
  | .flush => 0x00#8

/-- The command word of a command (spec/30_encoding.md R90, R96). -/
def encode (i : Instr) : Word16 := mkWord (opOf i) (argOf i)

/-- The word the host places for an instruction whose bits are `w`, `nbits` of them, the bits above zero. A command is one
16-bit word and crosses CMD whole, so there is no byte order (spec/30_encoding.md R104). -/
def tableWord (nbits w : Nat) : Word16 := BitVec.ofNat 16 (w % 2 ^ nbits)

/-- The instruction the decoder of the reference build reads from a word of the opcode table. -/
def decodeTableWord (nbits w : Nat) : Option Instr :=
  match decode Config.referenceHasTb (tableWord nbits w) with
  | .command i => some i
  | .illegal _ => none

end Sys2Proof
end

