-- ==== Sys2Proof/Machine/Bits.lean ====
section
/-! DEFINITION. Bytes from bit-strings and from words: `byte_of`, `be32` (spec/00_scope.md section 7.3), `pack`
(spec/44_bitpacker.md R226) and `unpack` (R227). -/

namespace Sys2Proof.Machine

/-- The value of the first `n` bits of a bit-string read most significant bit first, missing bits zero. -/
def msbValue : Nat → BitString → Nat
  | 0, _ => 0
  | _ + 1, [] => 0
  | n + 1, b :: t => b.toNat * 2 ^ n + msbValue n t

/-- `byte_of(t)`: bit `7 - j` is `t[j]`, the missing low-order bits are 0 (spec/00_scope.md section 7.3,
spec/20_memory.md R60). -/
def byteOf (t : BitString) : Byte := BitVec.ofNat 8 (msbValue 8 t)

/-- The first `n` bytes of `pack(s)`: byte `i` is `byte_of(s[8i .. 8i+8))`. -/
def packBytes : Nat → BitString → List Byte
  | 0, _ => []
  | n + 1, s => byteOf (s.take 8) :: packBytes n (s.drop 8)

/-- `pack(s)`: `ceil(len(s)/8)` bytes (spec/44_bitpacker.md R226). -/
def pack (s : BitString) : List Byte := packBytes ((s.length + 7) / 8) s

/-- `unpack(B, L)`: bit `k` is bit `7 - k mod 8` of byte `floor(k/8)` (spec/44_bitpacker.md R227). A specification
function only; HBE has no such operation (spec/00_scope.md R6). R227 defines it for `L ≤ 8·len(B)`; that a bit beyond the given bytes
is 0 is the model's choice (DESIGN CHOICE, safe; log 14). -/
def unpack (bytes : List Byte) (len : Nat) : BitString :=
  (List.range len).map fun k => ((bytes[k / 8]?).getD 0#8).getLsbD (7 - k % 8)

/-- `be32(v)`: four bytes, most significant first (spec/00_scope.md section 7.3, spec/20_memory.md R61). -/
def be32 (v : Word32) : List Byte :=
  [v.extractLsb' 24 8, v.extractLsb' 16 8, v.extractLsb' 8 8, v.extractLsb' 0 8]

end Sys2Proof.Machine
end

