-- ==== Sys2Proof/Machine/State.lean ====
section
/-! DEFINITION. The state of HBE as plain data: the engine's variables (spec/10_state.md R22 to R35), the parameter
`HAS_TB`, the host's commands not yet taken and the bytes handed to the host (spec/10_state.md R52), and its value at
reset (R53). -/

namespace Sys2Proof.Machine

/-- An entry of `NODE`: the tagged variant of spec/10_state.md R32. The fields a kind does not use do not exist
(spec/93_implementation_defined.md U4). A node index, which the spec gives 9 bits, is a plain number here, and that every
index held is below `NNODE = 511` is an invariant (DESIGN CHOICE, safe; log 8). -/
inductive Node where
  | leaf (sym : Symbol) (weight : Word32)
  | internal (weight : Word32) (left right : Nat)
  deriving DecidableEq, Repr

/-- The fault causes of spec/60_exceptions.md R240. They are values of `ERR`, not stops of the machine: raising one is a
next state (R250). -/
inductive FaultCode where
  | illegalCommand
  | lookupMiss
  | emptyCode
  | codeTooLong
  | countOverflow
  | lengthOverflow
  | queueEmpty
  deriving DecidableEq, Repr

/-- The eleven status registers (spec/10_state.md R37). -/
inductive StatusReg where
  | status
  | err
  | errInfo
  | bitLen
  | lastLen
  | plen
  | total
  | nsyms
  | ncnt
  | qsize
  | root
  deriving DecidableEq, Repr

/-- What the host can do between two commands: deliver a command word (spec/20_memory.md R68) or pulse `rst`
(spec/70_reset_and_hazards.md R280, R283; log 3). -/
inductive HostInput where
  | word (w : Word16)
  | rst
  deriving DecidableEq, Repr

/-- The machine. Fields in the order of spec/10_state.md R22 to R35, then what R52 lists. -/
structure State where
  /-- `CT`, the code table; `[]` is absent (R22). -/
  ct : Vector BitString 256
  /-- `PATH`, the code staging register (R23). -/
  path : BitString
  /-- `ACC`, the packer's accumulator, oldest bit first (R24). -/
  acc : BitString
  /-- `BITLEN`, the bits appended to the current stream (R25). -/
  bitLen : Word32
  /-- `LASTLEN`, the bit length of the last flushed stream (R26). -/
  lastLen : Word32
  /-- `ERR`, the fault code, 0 for none (R27). -/
  err : BitVec 8
  /-- `ERRINFO`, the word that caused the recorded fault (R28). -/
  errInfo : Word16
  /-- `FT`, the frequency table (R29). -/
  ft : Vector Word32 256
  /-- `TOTAL`, the `TAB` commands since `FT` was cleared (R30). -/
  total : Word32
  /-- `NSYMS`, the number of symbols with a non-zero count (R31). -/
  nsyms : BitVec 9
  /-- `NODE`, its meaningful entries; `NCNT` is the length (R32, R33, R55; log 7). -/
  nodes : List Node
  /-- `PQ`, the min-priority queue; `QSIZE` is the length (R34; log 7). -/
  pq : List Nat
  /-- `TREE`, whether a Huffman tree is held (R35). -/
  tree : Bool
  /-- `ROOT`, the root's index, 0 for the null tree (R35; log 8). -/
  root : Nat
  /-- `HAS_TB`, fixed for a build (R52; log 1). -/
  hasTb : Bool
  /-- What the host has delivered and the engine has not taken, oldest first (R52, spec/20_memory.md R68; log 2). -/
  cmd : List HostInput
  /-- `OUT`, the payload bytes handed over (spec/20_memory.md R66; log 5). -/
  out : List Byte
  /-- `RSP`, the response bytes handed over (spec/20_memory.md R67; log 5). -/
  rsp : List Byte
  deriving DecidableEq, Repr

/-- Why the machine stops with a fault. It has no constructor: nothing stops HBE, since its step is total and its own
faults are next states (spec/00_scope.md R10, spec/60_exceptions.md R250; log 12). No step raises one, which is safe. -/
inductive Fault where
  deriving DecidableEq, Repr

/-- Why a step is refused. -/
inductive Refusal where
  /-- Raised by an arm of `exec` whose instruction has no meaning yet, and by nothing else; no arm does now. Safe: the
  machine stops where the hardware goes on. -/
  | notModelled (mnemonic : String)
  deriving DecidableEq, Repr

/-- The outcome of a step. -/
abbrev Result := Host.Outcome State Fault Refusal

/-- The engine after a hardware reset of a build with `HAS_TB = hasTb`, as spec/10_state.md R53 says, with no command
delivered and no byte handed over yet (log 4, log 5). -/
def State.resetOf (hasTb : Bool) : State where
  ct := Vector.replicate 256 []
  path := []
  acc := []
  bitLen := 0#32
  lastLen := 0#32
  err := 0#8
  errInfo := 0#16
  ft := Vector.replicate 256 0#32
  total := 0#32
  nsyms := 0#9
  nodes := []
  pq := []
  tree := false
  root := 0
  hasTb := hasTb
  cmd := []
  out := []
  rsp := []

/-- The machine right after reset, of the reference build `HAS_TB = 1` (spec/10_state.md R53, spec/00_scope.md R7). -/
def State.reset : State := State.resetOf Config.referenceHasTb

end Sys2Proof.Machine
end

