-- ==== Sys2Proof/Machine/Ops.lean ====
section
/-! DEFINITION. The named operations over the state: sending bytes, fault entry and the fault state, reset, the tables,
the frequency counters, discarding the TB unit, and the packer's append. -/

namespace Sys2Proof.Machine

/-! ### The streams to the host -/

/-- `OUT.emit`: append to the payload stream (spec/20_memory.md R66). -/
def emitOut (bytes : List Byte) (s : State) : State := { s with out := s.out ++ bytes }

/-- `RSP.emit`: append to the read-out stream (spec/20_memory.md R67). -/
def emitRsp (bytes : List Byte) (s : State) : State := { s with rsp := s.rsp ++ bytes }

/-! ### Faults -/

/-- The value written to `ERR` (spec/60_exceptions.md R240). -/
def errCode : FaultCode → BitVec 8
  | .illegalCommand => 1#8
  | .lookupMiss => 2#8
  | .emptyCode => 3#8
  | .codeTooLong => 4#8
  | .countOverflow => 5#8
  | .lengthOverflow => 6#8
  | .queueEmpty => 7#8

/-- The state after fault entry: `ERR` and `ERRINFO` are written, nothing else changes (spec/60_exceptions.md R250). -/
def faulted (c : FaultCode) (w : Word16) (s : State) : State :=
  { s with err := errCode c, errInfo := w }

/-- `raise`: the command word `w` faults with cause `c`. It is taken: the outcome is a next state
(spec/60_exceptions.md R250). -/
def raise (c : FaultCode) (w : Word16) (s : State) : Result := .next (faulted c w s)

/-- A word that is illegal: `IllegalCommand` when no fault is recorded (spec/60_exceptions.md R241), dropped in the fault
state (R252). -/
def illegalWord (w : Word16) (s : State) : Result :=
  if s.err = 0#8 then raise .illegalCommand w s else .next s

/-- What stands around the pseudocode of every command but `RESET` and `RDSR`, in the order of spec/60_exceptions.md
R253: in the fault state the command is dropped (R252); a command this build has no legal word for is an illegal word
(R241; log 11); else the pseudocode runs. -/
def command (i : Instr) (s : State) (body : Result) : Result :=
  if s.err = 0#8 then
    if i.wf s.hasTb then body else illegalWord (encode i) s
  else .next s

/-! ### Reset -/

/-- Every engine variable at its reset value; the parameter, the host's list and the bytes already handed over stay
(spec/10_state.md R52, R53, spec/40_control.md R121, spec/70_reset_and_hazards.md R280, R282). -/
def engineReset (s : State) : State :=
  { State.resetOf s.hasTb with cmd := s.cmd, out := s.out, rsp := s.rsp }

/-! ### The tables -/

/-- `CT[sym]`; every symbol is a valid index (spec/20_memory.md R63). -/
def codeAt (ct : Vector BitString 256) (sym : Symbol) : BitString := ct[sym.toNat]'(sym.isLt)

/-- `CT[sym] <- c`. -/
def setCode (ct : Vector BitString 256) (sym : Symbol) (c : BitString) : Vector BitString 256 :=
  ct.set sym.toNat c sym.isLt

/-- Every entry absent. -/
def noCodes : Vector BitString 256 := Vector.replicate 256 []

/-- `FT[sym]`; every symbol is a valid index (spec/20_memory.md R63). -/
def countAt (ft : Vector Word32 256) (sym : Symbol) : Word32 := ft[sym.toNat]'(sym.isLt)

/-- `FT[sym] <- n`. -/
def setCount (ft : Vector Word32 256) (sym : Symbol) (n : Word32) : Vector Word32 256 :=
  ft.set sym.toNat n sym.isLt

/-- Every count zero. -/
def noCounts : Vector Word32 256 := Vector.replicate 256 0#32

/-- The symbols 0, 1, ..., 255 in this order (spec/41_tree_builder.md R148 step 1). -/
def allSymbols : List Symbol := (List.range 256).map (BitVec.ofNat 8)

/-! ### The TB unit's counters -/

/-- The three increments of `TAB` (spec/41_tree_builder.md R141). -/
def countSymbol (sym : Symbol) (s : State) : State :=
  { s with
    nsyms := if countAt s.ft sym = 0#32 then s.nsyms + 1#9 else s.nsyms
    ft := setCount s.ft sym (countAt s.ft sym + 1#32)
    total := s.total + 1#32 }

/-- `tb_discard()` (spec/41_tree_builder.md R147). -/
def tbDiscard (s : State) : State :=
  { s with
    ft := noCounts
    total := 0#32
    nsyms := 0#9
    nodes := []
    pq := []
    tree := false
    root := 0 }

/-! ### The packer -/

/-- `pk_append(b)` (spec/44_bitpacker.md R220). -/
def pkAppend (b : Bool) (s : State) : State :=
  if (s.acc ++ [b]).length = 8 then
    emitOut [byteOf (s.acc ++ [b])] { s with acc := [], bitLen := s.bitLen + 1#32 }
  else { s with acc := s.acc ++ [b], bitLen := s.bitLen + 1#32 }

/-- `for k = 0, 1, ..., len(c) - 1: pk_append(c[k])` (spec/43_encoder.md R210). -/
def pkAppendAll : BitString → State → State
  | [], s => s
  | b :: c, s => pkAppendAll c (pkAppend b s)

/-- Ending the stream: the last partial byte, padded, if there is one; `LASTLEN`; a new stream
(spec/44_bitpacker.md R222). -/
def pkFlush (s : State) : State :=
  if s.acc.length > 0 then
    emitOut [byteOf s.acc] { s with lastLen := s.bitLen, bitLen := 0#32, acc := [] }
  else { s with lastLen := s.bitLen, bitLen := 0#32, acc := [] }

end Sys2Proof.Machine
end

