-- ==== Sys2Proof/Machine/BitPacker.lean ====
section
/-! DEFINITION. The bit packer: `PKBIT`, `FLUSH` (spec/44_bitpacker.md). -/

namespace Sys2Proof.Machine

/-- `PKBIT b` appends the raw bit to the stream (spec/44_bitpacker.md R221). -/
def execPkbit (b : Bool) (s : State) : Result :=
  command (.pkbit b) s
    (if s.bitLen = Config.maxCount then raise .lengthOverflow (encode (.pkbit b)) s
    else .next (pkAppend b s))

/-- `FLUSH` ends the current stream (spec/44_bitpacker.md R222). -/
def execFlush (s : State) : Result := command .flush s (.next (pkFlush s))

end Sys2Proof.Machine
end

