-- ==== Sys2Proof/Machine/CodeTable.lean ====
section
/-! DEFINITION. The code assigner and the code table: `ASSIGN`, `CTCLR`, `PCLR`, `PBIT`, `CTSET`, `CTGET`
(spec/42_code_table.md). -/

namespace Sys2Proof.Machine

/-- `codes(n, p)` to depth `fuel`: left appends 0, right appends 1, left first (spec/42_code_table.md R181). -/
def codesTo (nodes : List Node) : Nat → Nat → BitString → List (Symbol × BitString)
  | 0, _, _ => []
  | fuel + 1, n, p =>
    match nodes[n]? with
    | none => []
    | some (.leaf sym _) => [(sym, p)]
    | some (.internal _ left right) =>
      codesTo nodes fuel left (p ++ [false]) ++ codesTo nodes fuel right (p ++ [true])

/-- `codes(n, p)`: the (symbol, code) pairs below node `n`. Child indices are smaller than `n`, so depth `n + 1` is enough
(spec/42_code_table.md R181). -/
def codes (nodes : List Node) (n : Nat) (p : BitString) : List (Symbol × BitString) :=
  codesTo nodes (n + 1) n p

/-- `for each (s, c): CT[s] <- c` (spec/42_code_table.md R180). -/
def storeCodes : List (Symbol × BitString) → Vector BitString 256 → Vector BitString 256
  | [], ct => ct
  | (sym, c) :: rest, ct => storeCodes rest (setCode ct sym c)

/-- The pairs `ASSIGN` stores: none for the null tree, the code "0" for a tree that is one leaf (spec/42_code_table.md
R182), else `codes(ROOT, "")` (R180). -/
def assignedCodes (s : State) : List (Symbol × BitString) :=
  if s.tree then
    match s.nodes[s.root]? with
    | some (.leaf sym _) => [(sym, [false])]
    | _ => codes s.nodes s.root []
  else []

/-- `ASSIGN` derives the code table from the tree, then discards the frequency table and the tree
(spec/42_code_table.md R180). -/
def execAssign (s : State) : Result :=
  command .assign s
    (.next (tbDiscard { s with ct := storeCodes (assignedCodes s) noCodes, path := [] }))

/-- `CTCLR` makes every entry absent (spec/42_code_table.md R185). -/
def execCtclr (s : State) : Result := command .ctclr s (.next { s with ct := noCodes })

/-- `PCLR` empties the staging register (spec/42_code_table.md R186). -/
def execPclr (s : State) : Result := command .pclr s (.next { s with path := [] })

/-- `PBIT b` appends one bit to the staging register (spec/42_code_table.md R187). -/
def execPbit (b : Bool) (s : State) : Result :=
  command (.pbit b) s
    (if s.path.length = Config.maxLen then raise .codeTooLong (encode (.pbit b)) s
    else .next { s with path := s.path ++ [b] })

/-- `CTSET sym` stores the staged code and empties the staging register (spec/42_code_table.md R188). -/
def execCtset (sym : Symbol) (s : State) : Result :=
  command (.ctset sym) s
    (if s.path.length = 0 then raise .emptyCode (encode (.ctset sym)) s
    else .next { s with ct := setCode s.ct sym s.path, path := [] })

/-- `CTGET sym` sends one length byte, then the code packed (spec/42_code_table.md R189). -/
def execCtget (sym : Symbol) (s : State) : Result :=
  command (.ctget sym) s
    (.next (emitRsp (BitVec.ofNat 8 (codeAt s.ct sym).length :: pack (codeAt s.ct sym)) s))

end Sys2Proof.Machine
end

