-- ==== Sys2Proof/Machine/Flags.lean ====
section
/-! DEFINITION. The flags of `STATUS` and the `fault` output, derived views of the state (spec/10_state.md R38, R50,
spec/60_exceptions.md R249). -/

namespace Sys2Proof.Machine

/-- `FAULT`: 1 iff `ERR ≠ 0`; the level of the `fault` output too (spec/10_state.md R38, spec/60_exceptions.md R249). -/
def faultFlag (s : State) : Bool := s.err != 0#8

/-- `TREE`: the flag `TREE`, always 0 when `HAS_TB = 0` (spec/10_state.md R38). -/
def treeFlag (s : State) : Bool := s.hasTb && s.tree

/-- `TBP`: hardwired to `HAS_TB` (spec/10_state.md R38). -/
def tbpFlag (s : State) : Bool := s.hasTb

/-- `PEND`: 1 iff `ACC ≠ ""` (spec/10_state.md R38). -/
def pendFlag (s : State) : Bool := !s.acc.isEmpty

/-- `STATUS`: bit 0 `FAULT`, bit 1 `TREE`, bit 2 `TBP`, bit 3 `PEND`, bits 31..4 hardwired 0 (spec/10_state.md R38). -/
def statusWord (s : State) : Word32 :=
  0#28 ++ BitVec.ofBool (pendFlag s) ++ BitVec.ofBool (tbpFlag s) ++ BitVec.ofBool (treeFlag s)
    ++ BitVec.ofBool (faultFlag s)

end Sys2Proof.Machine
end

