-- ==== Sys2Proof/Machine/Operands.lean ====
section
/-! DEFINITION. The operand form R: from a register number to the status register it names, and the 32-bit value each
reads as (spec/10_state.md R37 to R48). The symbol and bit operands of formats S and B are used as they are
(spec/30_encoding.md R95). -/

namespace Sys2Proof.Machine

/-- The status register with number `r`; numbers 11 to 255 are reserved (spec/10_state.md R37). -/
def statusReg (r : BitVec 8) : Option StatusReg :=
  match r with
  | 0#8 => some .status
  | 1#8 => some .err
  | 2#8 => some .errInfo
  | 3#8 => some .bitLen
  | 4#8 => some .lastLen
  | 5#8 => some .plen
  | 6#8 => some .total
  | 7#8 => some .nsyms
  | 8#8 => some .ncnt
  | 9#8 => some .qsize
  | 10#8 => some .root
  | _ => none

/-- A register of the TB unit reads 0 when `HAS_TB = 0` (spec/10_state.md R44 to R48, R54). -/
def tbView (s : State) (v : Word32) : Word32 := if s.hasTb then v else 0#32

/-- The value a status register reads as, zero-extended from its field (spec/10_state.md R37 to R48). `PLEN`, `NCNT`, `QSIZE`
and `ROOT` are cut to the widths of their registers, which matters only outside the invariant (logs 7, 8). -/
def statusValue (s : State) : StatusReg → Word32
  | .status => statusWord s
  | .err => s.err.zeroExtend 32
  | .errInfo => s.errInfo.zeroExtend 32
  | .bitLen => s.bitLen
  | .lastLen => s.lastLen
  | .plen => (BitVec.ofNat 8 s.path.length).zeroExtend 32
  | .total => tbView s s.total
  | .nsyms => tbView s (s.nsyms.zeroExtend 32)
  | .ncnt => tbView s ((BitVec.ofNat 9 s.nodes.length).zeroExtend 32)
  | .qsize => tbView s ((BitVec.ofNat 9 s.pq.length).zeroExtend 32)
  | .root => tbView s ((BitVec.ofNat 9 s.root).zeroExtend 32)

end Sys2Proof.Machine
end

