-- ==== Sys2Proof/Machine/Control.lean ====
section
/-! DEFINITION. The control commands `NOP`, `RESET`, `RDSR` (spec/40_control.md). -/

namespace Sys2Proof.Machine

/-- `NOP` does nothing (spec/40_control.md R120). -/
def execNop (s : State) : Result := command .nop s (.next s)

/-- `RESET` puts every engine variable at its reset value, in the fault state too (spec/40_control.md R121,
spec/60_exceptions.md R252, R254). -/
def execReset (s : State) : Result := .next (engineReset s)

/-- `RDSR r` sends the value of status register `r`, in the fault state too; `r ≥ 11` is an illegal word
(spec/40_control.md R122). -/
def execRdsr (r : BitVec 8) (s : State) : Result :=
  match statusReg r with
  | some reg => .next (emitRsp (be32 (statusValue s reg)) s)
  | none => illegalWord (encode (.rdsr r)) s

end Sys2Proof.Machine
end

