-- ==== Sys2Proof/Machine/Encoder.lean ====
section
/-! DEFINITION. The encoder: `ENC` (spec/43_encoder.md). -/

namespace Sys2Proof.Machine

/-- `ENC sym` looks up the code and appends it to the stream, or faults before the first bit; the sum is taken as an
unbounded integer (spec/43_encoder.md R210, spec/20_memory.md R78). -/
def execEnc (sym : Symbol) (s : State) : Result :=
  command (.enc sym) s
    (if (codeAt s.ct sym).length = 0 then raise .lookupMiss (encode (.enc sym)) s
    else if s.bitLen.toNat + (codeAt s.ct sym).length > Config.maxCount.toNat then
      raise .lengthOverflow (encode (.enc sym)) s
    else .next (pkAppendAll (codeAt s.ct sym) s))

end Sys2Proof.Machine
end

