-- ==== Sys2Proof/Machine/TreeBuilder.lean ====
section
/-! DEFINITION. The tree-builder unit: the min-priority queue, building the Huffman tree, and the commands `FCLR`, `TAB`,
`FGET`, `BUILD` (spec/41_tree_builder.md). -/

namespace Sys2Proof.Machine

/-- What `BUILD` works on: `NODE` and `PQ` (spec/41_tree_builder.md R148). -/
structure Forest where
  nodes : List Node
  pq : List Nat
  deriving DecidableEq, Repr

/-- The field `weight` of a node (spec/10_state.md R32). -/
def nodeWeight : Node → Word32
  | .leaf _ weight => weight
  | .internal weight _ _ => weight

/-- `NODE[n].weight`. `BUILD` asks only for allocated nodes; for another index the answer is 0 (log 10). -/
def weightAt (nodes : List Node) (n : Nat) : Word32 :=
  match nodes[n]? with
  | some node => nodeWeight node
  | none => 0#32

/-- The number of queued items whose weight is less than or equal to that of node `n`, the weights compared unsigned
(spec/41_tree_builder.md R143, spec/20_memory.md R79). -/
def pqPosition (n : Nat) (f : Forest) : Nat :=
  f.pq.countP fun j => decide ((weightAt f.nodes j).toNat ≤ (weightAt f.nodes n).toNat)

/-- `pq_insert(n)`: behind every queued item whose weight is less than or equal to its own
(spec/41_tree_builder.md R143). -/
def pqInsert (n : Nat) (f : Forest) : Forest :=
  { f with pq := f.pq.take (pqPosition n f) ++ n :: f.pq.drop (pqPosition n f) }

/-- `pq_extract_min()`: the front item and the queue without it; `none` is `QueueEmpty`
(spec/41_tree_builder.md R144). -/
def pqExtractMin (f : Forest) : Option (Nat × Forest) :=
  match f.pq with
  | [] => none
  | n :: rest => some (n, { f with pq := rest })

/-- `pq_size()` (spec/41_tree_builder.md R145). -/
def pqSize (f : Forest) : Nat := f.pq.length

/-- `pq_is_empty()` (spec/41_tree_builder.md R146). -/
def pqIsEmpty (f : Forest) : Bool := pqSize f == 0

/-- `NODE[NCNT] <- node; pq_insert(NCNT); NCNT <- NCNT + 1` (spec/41_tree_builder.md R148). -/
def allocate (node : Node) (f : Forest) : Forest :=
  pqInsert f.nodes.length { f with nodes := f.nodes ++ [node] }

/-- Step 1 of `BUILD` for the symbols listed, in their order: one leaf per observed symbol
(spec/41_tree_builder.md R148). -/
def addLeaves (ft : Vector Word32 256) : List Symbol → Forest → Forest
  | [], f => f
  | sym :: rest, f =>
    addLeaves ft rest (if countAt ft sym ≠ 0#32 then allocate (.leaf sym (countAt ft sym)) f else f)

/-- One merge of step 2: the first extracted is the left child, the second the right (spec/41_tree_builder.md R148). -/
def mergeOnce (f : Forest) : Option Forest :=
  match pqExtractMin f with
  | none => none
  | some (a, f₁) =>
    match pqExtractMin f₁ with
    | none => none
    | some (b, f₂) => some (allocate (.internal (weightAt f₂.nodes a + weightAt f₂.nodes b) a b) f₂)

/-- Step 2 of `BUILD`, at most `fuel` merges: merge while `pq_size() > 1` (spec/41_tree_builder.md R148). A merge makes
the queue one shorter, so as many merges as it has items are enough. -/
def mergeLoop : Nat → Forest → Option Forest
  | 0, f => some f
  | fuel + 1, f =>
    if pqSize f > 1 then
      match mergeOnce f with
      | some f' => mergeLoop fuel f'
      | none => none
    else some f

/-- Step 1 of `BUILD`: the leaves of every observed symbol, in ascending symbol value, with no earlier tree
(spec/41_tree_builder.md R148). -/
def leafForest (ft : Vector Word32 256) : Forest := addLeaves ft allSymbols { nodes := [], pq := [] }

/-- Steps 1 and 2 of `BUILD`; `none` is `QueueEmpty`, which does not happen (spec/41_tree_builder.md R144, R148). -/
def buildForest (ft : Vector Word32 256) : Option Forest :=
  mergeLoop (pqSize (leafForest ft)) (leafForest ft)

/-- Step 3 of `BUILD`: the survivor, which stays in the queue, is the root; with none the tree is null
(spec/41_tree_builder.md R148). -/
def holdTree (f : Forest) (s : State) : State :=
  match f.pq with
  | [r] => { s with nodes := f.nodes, pq := f.pq, tree := true, root := r }
  | _ => { s with nodes := f.nodes, pq := f.pq, tree := false, root := 0 }

/-- `FCLR` clears the whole TB unit (spec/41_tree_builder.md R140). -/
def execFclr (s : State) : Result := command .fclr s (.next (tbDiscard s))

/-- `TAB sym` counts one occurrence (spec/41_tree_builder.md R141). -/
def execTab (sym : Symbol) (s : State) : Result :=
  command (.tab sym) s
    (if s.total = Config.maxCount then raise .countOverflow (encode (.tab sym)) s
    else .next (countSymbol sym s))

/-- `FGET sym` sends `FT[sym]` (spec/41_tree_builder.md R142). -/
def execFget (sym : Symbol) (s : State) : Result :=
  command (.fget sym) s (.next (emitRsp (be32 (countAt s.ft sym)) s))

/-- `BUILD` builds the Huffman tree from the frequency table, forgetting any earlier tree (spec/41_tree_builder.md R148).
On `QueueEmpty` the fault state is the one before `BUILD` with `ERR` and `ERRINFO` (spec/60_exceptions.md R247). -/
def execBuild (s : State) : Result :=
  command .build s
    (match buildForest s.ft with
    | some f => .next (holdTree f s)
    | none => raise .queueEmpty (encode .build) s)

end Sys2Proof.Machine
end

