-- ==== Sys2Proof/Machine/Dispatch.lean ====
section
/-! DEFINITION. What each command does: one arm per constructor of `Instr` (spec/30_encoding.md R96). -/

namespace Sys2Proof.Machine

def exec (i : Instr) (s : State) : Host.Outcome State Fault Refusal :=
  match i with
  | .nop => Sys2Proof.Machine.execNop s
  | .reset => Sys2Proof.Machine.execReset s
  | .rdsr r => Sys2Proof.Machine.execRdsr r s
  | .fclr => Sys2Proof.Machine.execFclr s
  | .tab sym => Sys2Proof.Machine.execTab sym s
  | .fget sym => Sys2Proof.Machine.execFget sym s
  | .build => Sys2Proof.Machine.execBuild s
  | .assign => Sys2Proof.Machine.execAssign s
  | .ctclr => Sys2Proof.Machine.execCtclr s
  | .pclr => Sys2Proof.Machine.execPclr s
  | .pbit b => Sys2Proof.Machine.execPbit b s
  | .ctset sym => Sys2Proof.Machine.execCtset sym s
  | .ctget sym => Sys2Proof.Machine.execCtget sym s
  | .enc sym => Sys2Proof.Machine.execEnc sym s
  | .pkbit b => Sys2Proof.Machine.execPkbit b s
  | .flush => Sys2Proof.Machine.execFlush s

end Sys2Proof.Machine
end

