-- ==== Sys2Proof/Machine/Fetch.lean ====
section
/-! DEFINITION. Taking what the host has delivered: one command word, or one `rst` pulse between commands
(spec/00_scope.md R10, spec/60_exceptions.md R252, spec/70_reset_and_hazards.md R280, R283). -/

namespace Sys2Proof.Machine

/-- One command word: `decode` first; an illegal word faults or is dropped, a command runs
(spec/30_encoding.md R97, spec/60_exceptions.md R241, R252, R253). -/
def execWord (w : Word16) (s : State) : Result :=
  match decode s.hasTb w with
  | .command i => exec i s
  | .illegal _ => illegalWord w s

/-- One input of the host (log 2, log 3). -/
def execInput (input : HostInput) (s : State) : Result :=
  match input with
  | .word w => execWord w s
  | .rst => .next (engineReset s)

/-- Taking the oldest input; with nothing delivered the engine idles and all its state survives
(spec/60_exceptions.md R258; log 2). -/
def takeInput (s : State) : Result :=
  match s.cmd with
  | [] => .next s
  | input :: rest => execInput input { s with cmd := rest }

/-- A word delivered in front of what is waiting: the next one the engine takes (log 4). -/
def placeWord (w : Word16) (s : State) : State := { s with cmd := .word w :: s.cmd }

end Sys2Proof.Machine
end

