-- ==== Sys2Proof/Machine/Step.lean ====
section
/-! DEFINITION. One step of the machine: the engine takes one input of the host, to completion (spec/00_scope.md R8,
R10). -/

namespace Sys2Proof.Machine

/-- The step of spec/00_scope.md R10, over the list of delivered inputs. -/
def step (s : State) : Host.Outcome State Fault Refusal := takeInput s

/-- The state with an instruction of the opcode table delivered as the next word. -/
def State.withFetchWord (s : State) (nbits w : Nat) : State := placeWord (tableWord nbits w) s

end Sys2Proof.Machine
end

