-- ==== Sys2Proof/Machine/Run.lean ====
section
/-! DEFINITION. Runs: a list of command words, or of commands, applied in order to a state (spec/00_scope.md R10,
spec/70_reset_and_hazards.md R294). -/

namespace Sys2Proof.Machine

/-- `run`: the command words of the list, in order (spec/00_scope.md R10). -/
def runWords : List Word16 → State → Result
  | [], s => .next s
  | w :: rest, s =>
    match execWord w s with
    | .next t => runWords rest t
    | .fault r => .fault r
    | .refused r => .refused r

/-- The commands of the list, in order (spec/20_memory.md R75). -/
def runCommands : List Instr → State → Result
  | [], s => .next s
  | i :: rest, s =>
    match exec i s with
    | .next t => runCommands rest t
    | .fault r => .fault r
    | .refused r => .refused r

end Sys2Proof.Machine
end

