-- ==== Sys2Proof/Safety.lean ====
section
/-! DEFINITION. What claims are stated with: the invariant of spec/10_state.md R36, good runs and complete payloads
(spec/70_reset_and_hazards.md R294), the stream a packer state stands for, and the properties of a code table
(spec/42_code_table.md R184). -/

namespace Sys2Proof.Machine

/-! ### The invariant of the state -/

/-- R36 clause 1. -/
abbrev AccOk (s : State) : Prop := s.acc.length = s.bitLen.toNat % 8

/-- R36 clause 2. -/
abbrev LengthsOk (s : State) : Prop :=
  (∀ c ∈ s.ct.toList, c.length ≤ Config.maxLen) ∧ s.path.length ≤ Config.maxLen

/-- `Σ_s FT[s]`, as an unbounded integer. -/
def countSum (ft : Vector Word32 256) : Nat := (ft.toList.map BitVec.toNat).sum

/-- The observed symbols, in ascending order (spec/10_state.md R29). -/
def observed (ft : Vector Word32 256) : List Symbol := allSymbols.filter fun x => countAt ft x != 0#32

/-- R36 clause 3. -/
abbrev CountsOk (s : State) : Prop :=
  countSum s.ft = s.total.toNat ∧ (observed s.ft).length = s.nsyms.toNat

/-- Queue order: lighter first, and among equal weights the earlier inserted first. Nodes are inserted in the order of
their indices (spec/41_tree_builder.md R148), so the earlier inserted is the one with the smaller index. -/
abbrev QueuedBefore (nodes : List Node) (a b : Nat) : Prop :=
  (weightAt nodes a).toNat < (weightAt nodes b).toNat ∨ (weightAt nodes a = weightAt nodes b ∧ a < b)

/-- R36 clause 4. -/
abbrev QueueOk (s : State) : Prop :=
  s.pq.Pairwise (QueuedBefore s.nodes) ∧ ∀ n ∈ s.pq, n < s.nodes.length

/-- R36 clause 5. -/
abbrev TreeOk (s : State) : Prop :=
  (s.tree = true → 1 ≤ s.nodes.length ∧ s.root = s.nodes.length - 1 ∧ s.pq = [s.root]) ∧
    (s.tree = false → s.nodes = [] ∧ s.pq = [] ∧ s.root = 0)

/-- R36 clause 6 for the entry with index `i`, the weights added as integers. -/
def nodeOk (nodes : List Node) (i : Nat) : Bool :=
  match nodes[i]? with
  | some (.internal weight left right) =>
    decide (left < i) && decide (right < i) && decide (left ≠ right) &&
      decide (weight.toNat = (weightAt nodes left).toNat + (weightAt nodes right).toNat)
  | _ => true

/-- R36 clause 6. -/
abbrev NodesOk (s : State) : Prop := ∀ i < s.nodes.length, nodeOk s.nodes i = true

/-- R36 clause 7. -/
abbrev ErrOk (s : State) : Prop := s.err.toNat ≤ 7 ∧ (s.err = 0#8 → s.errInfo = 0#16)

/-- What the node memory and a code-table entry can hold: at most 511 nodes (spec/20_memory.md R64), and no leaf of a held
tree deeper than 255 (spec/42_code_table.md R180, R184). The second part makes the invariant inductive. -/
abbrev CapacityOk (s : State) : Prop :=
  s.nodes.length ≤ Config.nnode ∧
    (s.tree = true → ∀ p ∈ codes s.nodes s.root [], p.2.length ≤ Config.maxLen)

/-- Without the TB unit its variables stay at their reset values (spec/10_state.md R54). -/
abbrev NoUnitOk (s : State) : Prop :=
  s.hasTb = false →
    s.ft = noCounts ∧ s.total = 0#32 ∧ s.nsyms = 0#9 ∧ s.nodes = [] ∧ s.pq = [] ∧ s.tree = false ∧ s.root = 0

/-- The invariant: the seven clauses of spec/10_state.md R36, with R54 and the capacities. -/
structure State.Inv (s : State) : Prop where
  acc : AccOk s
  lengths : LengthsOk s
  counts : CountsOk s
  queue : QueueOk s
  tree : TreeOk s
  nodes : NodesOk s
  err : ErrOk s
  capacity : CapacityOk s
  noUnit : NoUnitOk s

/-! ### Runs -/

/-- A run that ends in `s` is good: no fault is recorded (spec/70_reset_and_hazards.md R294). -/
abbrev State.Good (s : State) : Prop := s.err = 0#8

/-- A run that ends in `s` leaves a complete payload: it is good and no stream is open
(spec/70_reset_and_hazards.md R294). -/
abbrev State.CompletePayload (s : State) : Prop := s.Good ∧ s.acc = [] ∧ s.bitLen = 0#32

/-! ### Streams -/

/-- The part of a bit-string that fills whole bytes. -/
def wholeBytes (bits : BitString) : BitString := bits.take (8 * (bits.length / 8))

/-- The bits of a bit-string after its last whole byte. -/
def pendingBits (bits : BitString) : BitString := bits.drop (8 * (bits.length / 8))

/-- The packer has sent `done`, then the whole bytes of the open stream `bits`, and holds the rest
(spec/44_bitpacker.md R223). -/
abbrev State.StreamIs (s : State) (done : List Byte) (bits : BitString) : Prop :=
  s.out = done ++ pack (wholeBytes bits) ∧ s.acc = pendingBits bits ∧ s.bitLen.toNat = bits.length

/-- The bits a command appends to the stream when it does not fault (spec/43_encoder.md R210,
spec/44_bitpacker.md R221). -/
def streamBits (ct : Vector BitString 256) : Instr → BitString
  | .enc sym => codeAt ct sym
  | .pkbit b => [b]
  | .nop | .reset | .rdsr _ | .fclr | .tab _ | .fget _ | .build | .assign | .ctclr | .pclr | .pbit _ | .ctset _
  | .ctget _ | .flush => []

/-- The two commands that append to the stream (spec/44_bitpacker.md R223). -/
def appendsBits : Instr → Bool
  | .enc _ => true
  | .pkbit _ => true
  | .nop | .reset | .rdsr _ | .fclr | .tab _ | .fget _ | .build | .assign | .ctclr | .pclr | .pbit _ | .ctset _
  | .ctget _ | .flush => false

/-! ### Code tables -/

/-- No present code is a prefix of the code of another symbol (spec/42_code_table.md R184 clause 4). -/
def PrefixFree (ct : Vector BitString 256) : Prop :=
  ∀ x y : Symbol, x ≠ y → codeAt ct x ≠ [] → codeAt ct y ≠ [] → ¬ (codeAt ct x <+: codeAt ct y)

/-- `Σ_s 2^(255 - len(CT[s]))` over the present codes: Kraft's sum, scaled by `2^255` so that it is an integer
(spec/42_code_table.md R184 clause 5). -/
def kraftSum (ct : Vector BitString 256) : Nat :=
  ((allSymbols.filter fun x => !(codeAt ct x).isEmpty).map fun x => 2 ^ (255 - (codeAt ct x).length)).sum

/-- The symbols of the leaves below a node, left to right, with the frequencies summed as 32-bit words
(spec/41_tree_builder.md R149). -/
def leafWeight (ft : Vector Word32 256) (nodes : List Node) (n : Nat) : Word32 :=
  ((codes nodes n []).map fun p => countAt ft p.1).sum

end Sys2Proof.Machine
end

