-- ==== Sys2Proof/Certificates/Slice0/Obligations.lean ====
section
/-! DEFINITION. The statements for the provers, from the numbered rules of spec/. Every statement about a command gives the
whole next state, so it is the command's frame too. -/

open Sys2Proof Sys2Proof.Machine

/-! ### Encoding -/

/-- R96, R97 of spec/30_encoding.md: on either build a word decodes to a command exactly when it is the word of that
command and the build has the command. So every well-formed command is read back from its word, with every operand at
every value, and no other word is read as it. -/
def Obligations.DecodeAndEncodeAgree : Prop :=
  ∀ (hasTb : Bool) (w : Word16) (i : Instr),
    decode hasTb w = .command i ↔ i.wf hasTb = true ∧ w = encode i

/-- R98 of spec/30_encoding.md with R241 of spec/60_exceptions.md: the five clauses, and what executing such a word does. -/
def Obligations.IllegalWordsAreTheFiveClauses : Prop :=
  ∀ (hasTb : Bool) (w : Word16),
    ((∃ why, decode hasTb w = .illegal why) ↔
      (w.extractLsb' 8 8 ∉ [0x00#8, 0x01#8, 0x02#8, 0x10#8, 0x11#8, 0x12#8, 0x13#8, 0x20#8, 0x21#8, 0x22#8, 0x23#8,
          0x24#8, 0x25#8, 0x30#8, 0x40#8, 0x41#8]) ∨
      (w.extractLsb' 8 8 ∈ [0x00#8, 0x01#8, 0x10#8, 0x13#8, 0x20#8, 0x21#8, 0x22#8, 0x41#8] ∧
        w.extractLsb' 0 8 ≠ 0x00#8) ∨
      (w.extractLsb' 8 8 ∈ [0x23#8, 0x40#8] ∧ 2 ≤ (w.extractLsb' 0 8).toNat) ∨
      (w.extractLsb' 8 8 = 0x02#8 ∧ 11 ≤ (w.extractLsb' 0 8).toNat) ∨
      (w.extractLsb' 8 8 ∈ [0x10#8, 0x11#8, 0x12#8, 0x13#8, 0x20#8] ∧ hasTb = false)) ∧
    ∀ s : State, s.hasTb = hasTb → (∃ why, decode hasTb w = .illegal why) →
      (s.err = 0#8 → execWord w s = .next { s with err := 1#8, errInfo := w }) ∧
      (s.err ≠ 0#8 → execWord w s = .next s)

/-- R97 of spec/30_encoding.md: of the 65536 words, over all values of both fields, 1303 are legal with the TB unit and 788
without. -/
def Obligations.LegalWordsAreCounted : Prop :=
  ((List.range 256).map fun op => (List.range 256).countP fun arg =>
    isCommand (decode true (mkWord (BitVec.ofNat 8 op) (BitVec.ofNat 8 arg)))).sum = 1303 ∧
  ((List.range 256).map fun op => (List.range 256).countP fun arg =>
    isCommand (decode false (mkWord (BitVec.ofNat 8 op) (BitVec.ofNat 8 arg)))).sum = 788

/-- R100 of spec/30_encoding.md: the words of the TB unit are legal with it and illegal without it, and bit 2 of `STATUS`
tells which build it is. -/
def Obligations.TreeBuilderWordsNeedTheUnit : Prop :=
  (∀ ss : Symbol, ∀ w ∈ [0x1000#16, mkWord 0x11#8 ss, mkWord 0x12#8 ss, 0x1300#16, 0x2000#16],
    decode false w = .illegal .noTreeBuilder ∧ ∃ i, decode true w = .command i) ∧
  ∀ s : State, (statusWord s).getLsbD 2 = s.hasTb ∧
    exec (.rdsr 0#8) s = .next { s with rsp := s.rsp ++ be32 (statusWord s) }

/-- R96, R102 of spec/30_encoding.md and the words of spec/95_test_vectors.md V-DEC: a word of every command, written out,
decodes to it. -/
def Obligations.SpecWordsDecodeAsWritten : Prop :=
  decode true 0x0000#16 = .command .nop ∧ decode true 0x0100#16 = .command .reset ∧
  decode true 0x0204#16 = .command (.rdsr 4#8) ∧ decode true 0x1000#16 = .command .fclr ∧
  decode true 0x1161#16 = .command (.tab 0x61#8) ∧ decode true 0x1261#16 = .command (.fget 0x61#8) ∧
  decode true 0x1300#16 = .command .build ∧ decode true 0x2000#16 = .command .assign ∧
  decode true 0x2100#16 = .command .ctclr ∧ decode true 0x2200#16 = .command .pclr ∧
  decode true 0x2301#16 = .command (.pbit true) ∧ decode true 0x2478#16 = .command (.ctset 0x78#8) ∧
  decode true 0x2578#16 = .command (.ctget 0x78#8) ∧ decode true 0x3061#16 = .command (.enc 0x61#8) ∧
  decode true 0x4001#16 = .command (.pkbit true) ∧ decode true 0x4100#16 = .command .flush ∧
  isCommand (decode true 0xFFFF#16) = false

/-! ### The step -/

/-- R8, R10 of spec/00_scope.md: a step takes the oldest word delivered. When it decodes to a command, the step is that
command on the state with the word taken from the list; nothing else is done. -/
def Obligations.StepRunsTheDecodedCommand : Prop :=
  ∀ (s : State) (w : Word16) (rest : List HostInput), s.cmd = .word w :: rest →
    step s = execWord w { s with cmd := rest } ∧
    ∀ i, decode s.hasTb w = .command i → step s = exec i { s with cmd := rest }

/-- R253 of spec/60_exceptions.md: delivering a command's own word and taking a step is the command, for every command and
every state, the fault state, a build without the TB unit and a reserved register number among them. -/
def Obligations.StepOfAPlacedCommandIsExec : Prop :=
  ∀ (i : Instr) (s : State), step (placeWord (encode i) s) = exec i s

/-- R10 of spec/00_scope.md: every step has a next state; the machine never stops. -/
def Obligations.EveryStepAnswersANextState : Prop :=
  ∀ s : State, ∃ t, step s = .next t

/-- R10 of spec/00_scope.md: what a command does to the engine and which bytes it sends depend on the engine's state and
the command alone, not on the words that follow nor on the bytes already handed over, and it changes those only by
appending its bytes. -/
def Obligations.EngineSeesOnlyItsStateAndTheWord : Prop :=
  ∀ (i : Instr) (s : State), ∃ t,
    exec i { s with cmd := [], out := [], rsp := [] } = .next t ∧ t.cmd = [] ∧
    exec i s = .next { t with cmd := s.cmd, out := s.out ++ t.out, rsp := s.rsp ++ t.rsp }

/-- R10 of spec/00_scope.md: as many steps as words delivered are the run of those words, in order. -/
def Obligations.StepsAreTheRunOfTheWords : Prop :=
  ∀ (ws : List Word16) (s : State), s.cmd = ws.map .word →
    Host.Core.run core ws.length s = runWords ws { s with cmd := [] }

/-- R258 of spec/60_exceptions.md: with nothing delivered the engine is idle and all state survives. -/
def Obligations.IdleEngineKeepsItsState : Prop :=
  ∀ s : State, s.cmd = [] → step s = .next s

/-! ### Reset -/

/-- R53 of spec/10_state.md and R280 of spec/70_reset_and_hazards.md: the table of reset values, after the command and
after `rst`, from every state. `rst` comes between commands, as an input of the host (log 3). -/
def Obligations.ResetLeavesTheTableOfValues : Prop :=
  ∀ (s : State) (rest : List HostInput), ∃ t,
    exec .reset { s with cmd := rest } = .next t ∧
    (s.cmd = .rst :: rest → step s = .next t) ∧
    (∀ x, codeAt t.ct x = []) ∧ t.path = [] ∧ t.acc = [] ∧ t.bitLen = 0#32 ∧ t.lastLen = 0#32 ∧ t.err = 0#8 ∧
    t.errInfo = 0#16 ∧ (∀ x, countAt t.ft x = 0#32) ∧ t.total = 0#32 ∧ t.nsyms = 0#9 ∧ t.nodes = [] ∧ t.pq = [] ∧
    t.tree = false ∧ t.root = 0 ∧ t.hasTb = s.hasTb ∧ t.cmd = rest ∧ t.out = s.out ∧ t.rsp = s.rsp

/-- R53 of spec/10_state.md: the values of `State.reset`. The build is the reference one (log 1), and the lists of the
host's words and of the bytes handed over start empty (logs 4, 5): these four are the model's choice, not R53's. -/
def Obligations.StateResetHasTheTableOfValues : Prop :=
  (∀ x, codeAt State.reset.ct x = []) ∧ (∀ x, countAt State.reset.ft x = 0#32) ∧
  State.reset.path = [] ∧ State.reset.acc = [] ∧ State.reset.bitLen = 0#32 ∧ State.reset.lastLen = 0#32 ∧
  State.reset.err = 0#8 ∧ State.reset.errInfo = 0#16 ∧ State.reset.total = 0#32 ∧ State.reset.nsyms = 0#9 ∧
  State.reset.nodes = [] ∧ State.reset.pq = [] ∧ State.reset.tree = false ∧ State.reset.root = 0 ∧
  State.reset.hasTb = true ∧ State.reset.cmd = [] ∧ State.reset.out = [] ∧ State.reset.rsp = []

/-! ### The control commands -/

/-- R120 of spec/40_control.md. -/
def Obligations.NopDoesNothing : Prop :=
  (∀ s : State, exec .nop s = .next s) ∧
  (∀ hasTb, decode hasTb 0x0000#16 = .command .nop) ∧
  ∀ (hasTb : Bool) (x : BitVec 8), x ≠ 0x00#8 → ∃ why, decode hasTb (mkWord 0x00#8 x) = .illegal why

/-- R121 of spec/40_control.md: every engine variable at its reset value, from every state, the fault state among them;
pending bits are discarded; a word 0x01xx with a non-zero operand does not reset. -/
def Obligations.ResetCommandResetsTheEngine : Prop :=
  (∀ s : State, ∃ t, exec .reset s = .next t ∧
    t = { State.resetOf s.hasTb with cmd := s.cmd, out := s.out, rsp := s.rsp } ∧
    faultFlag t = false ∧ treeFlag t = false ∧ pendFlag t = false) ∧
  (∀ hasTb, decode hasTb 0x0100#16 = .command .reset) ∧
  (∀ (s : State) (x : BitVec 8), x ≠ 0x00#8 → s.err ≠ 0#8 → execWord (mkWord 0x01#8 x) s = .next s) ∧
  ∀ (hasTb : Bool) (x : BitVec 8), x ≠ 0x00#8 → ∃ why, decode hasTb (mkWord 0x01#8 x) = .illegal why

/-- R122 of spec/40_control.md with the values of R37 and R43 to R48 of spec/10_state.md and the byte order of R61 of
spec/20_memory.md, in every state, the fault state among them. The bits of `STATUS` are the next statement. That `PLEN` is
read modulo 256 and `NCNT`, `QSIZE`, `ROOT` modulo 512, the widths of their registers, is the model's choice (logs 7, 8);
the values fit in every state that meets the invariant. -/
def Obligations.RdsrSendsTheRegister : Prop :=
  (∀ v : Word32, be32 v = [v.extractLsb' 24 8, v.extractLsb' 16 8, v.extractLsb' 8 8, v.extractLsb' 0 8]) ∧
  ∀ s : State,
    exec (.rdsr 0#8) s = .next { s with rsp := s.rsp ++ be32 (statusWord s) } ∧
    exec (.rdsr 1#8) s = .next { s with rsp := s.rsp ++ be32 (BitVec.ofNat 32 s.err.toNat) } ∧
    exec (.rdsr 2#8) s = .next { s with rsp := s.rsp ++ be32 (BitVec.ofNat 32 s.errInfo.toNat) } ∧
    exec (.rdsr 3#8) s = .next { s with rsp := s.rsp ++ be32 s.bitLen } ∧
    exec (.rdsr 4#8) s = .next { s with rsp := s.rsp ++ be32 s.lastLen } ∧
    exec (.rdsr 5#8) s = .next { s with rsp := s.rsp ++ be32 (BitVec.ofNat 32 (s.path.length % 256)) } ∧
    exec (.rdsr 6#8) s = .next { s with rsp := s.rsp ++ be32 (if s.hasTb then s.total else 0#32) } ∧
    exec (.rdsr 7#8) s =
      .next { s with rsp := s.rsp ++ be32 (if s.hasTb then BitVec.ofNat 32 s.nsyms.toNat else 0#32) } ∧
    exec (.rdsr 8#8) s =
      .next { s with rsp := s.rsp ++ be32 (if s.hasTb then BitVec.ofNat 32 (s.nodes.length % 512) else 0#32) } ∧
    exec (.rdsr 9#8) s =
      .next { s with rsp := s.rsp ++ be32 (if s.hasTb then BitVec.ofNat 32 (s.pq.length % 512) else 0#32) } ∧
    exec (.rdsr 10#8) s =
      .next { s with rsp := s.rsp ++ be32 (if s.hasTb then BitVec.ofNat 32 (s.root % 512) else 0#32) } ∧
    (∀ r : BitVec 8, r.toNat ≤ 10 → ∀ hasTb, decode hasTb (mkWord 0x02#8 r) = .command (.rdsr r)) ∧
    ∀ r : BitVec 8, 11 ≤ r.toNat →
      (s.err = 0#8 → execWord (mkWord 0x02#8 r) s = .next { s with err := 1#8, errInfo := mkWord 0x02#8 r }) ∧
      (s.err ≠ 0#8 → execWord (mkWord 0x02#8 r) s = .next s)

/-- R38 of spec/10_state.md. -/
def Obligations.StatusBitsAreTheFlags : Prop :=
  ∀ s : State,
    ((statusWord s).getLsbD 0 = true ↔ s.err ≠ 0#8) ∧
    ((statusWord s).getLsbD 1 = true ↔ s.hasTb = true ∧ s.tree = true) ∧
    ((statusWord s).getLsbD 2 = true ↔ s.hasTb = true) ∧
    ((statusWord s).getLsbD 3 = true ↔ s.acc ≠ []) ∧
    (∀ i, 4 ≤ i → (statusWord s).getLsbD i = false) ∧
    (s.acc.length = s.bitLen.toNat % 8 → ((statusWord s).getLsbD 3 = true ↔ s.bitLen.toNat % 8 ≠ 0))

/-! ### The tree builder -/

/-- R140 of spec/41_tree_builder.md. -/
def Obligations.FclrClearsTheUnit : Prop :=
  encode .fclr = 0x1000#16 ∧
  ∀ s : State, s.err = 0#8 → s.hasTb = true → ∃ t,
    exec .fclr s = .next t ∧ (∀ x, countAt t.ft x = 0#32) ∧
    t = { s with ft := t.ft, total := 0#32, nsyms := 0#9, nodes := [], pq := [], tree := false, root := 0 }

/-- R141 of spec/41_tree_builder.md. -/
def Obligations.TabCountsOneOccurrence : Prop :=
  ∀ (sym : Symbol) (s : State), encode (.tab sym) = mkWord 0x11#8 sym ∧
    (s.err = 0#8 → s.hasTb = true →
      (s.total.toNat = 2 ^ 32 - 1 →
        exec (.tab sym) s = .next { s with err := 5#8, errInfo := mkWord 0x11#8 sym }) ∧
      (s.total.toNat ≠ 2 ^ 32 - 1 → ∃ t,
        exec (.tab sym) s = .next t ∧
        (∀ x, countAt t.ft x = if x = sym then countAt s.ft x + 1#32 else countAt s.ft x) ∧
        t = { s with
          ft := t.ft
          nsyms := if countAt s.ft sym = 0#32 then s.nsyms + 1#9 else s.nsyms
          total := s.total + 1#32 }))

/-- R142 of spec/41_tree_builder.md. -/
def Obligations.FgetSendsTheCount : Prop :=
  ∀ (sym : Symbol) (s : State), encode (.fget sym) = mkWord 0x12#8 sym ∧
    (s.err = 0#8 → s.hasTb = true →
      exec (.fget sym) s = .next { s with rsp := s.rsp ++
        [(countAt s.ft sym).extractLsb' 24 8, (countAt s.ft sym).extractLsb' 16 8,
          (countAt s.ft sym).extractLsb' 8 8, (countAt s.ft sym).extractLsb' 0 8] }) ∧
    (s.err ≠ 0#8 → exec (.fget sym) s = .next s)

/-- R143 of spec/41_tree_builder.md: on a queue in ascending order of weight, the items before the inserted one are those
whose weight is less than or equal to its own, in their order, and the others come behind it. -/
def Obligations.PqInsertIsStable : Prop :=
  ∀ (n : Nat) (f : Forest),
    f.pq.Pairwise (fun a b => (weightAt f.nodes a).toNat ≤ (weightAt f.nodes b).toNat) →
    ∃ before after, f.pq = before ++ after ∧ (pqInsert n f).pq = before ++ n :: after ∧
      (∀ a ∈ before, (weightAt f.nodes a).toNat ≤ (weightAt f.nodes n).toNat) ∧
      (∀ a ∈ after, (weightAt f.nodes n).toNat < (weightAt f.nodes a).toNat) ∧
      (pqInsert n f).nodes = f.nodes ∧ pqSize (pqInsert n f) = pqSize f + 1 ∧
      (pqInsert n f).pq.Pairwise (fun a b => (weightAt f.nodes a).toNat ≤ (weightAt f.nodes b).toNat)

/-- R144 of spec/41_tree_builder.md and one merge of step 2 of R148: the front item is taken and the queue loses it; an
empty queue gives none, which is `QueueEmpty`. A merge makes the first item taken the left child and the second the right
one, adds their weights, and inserts the new node behind those allocated. -/
def Obligations.MergeTakesTheTwoFrontItems : Prop :=
  ∀ f : Forest,
    (f.pq = [] → pqExtractMin f = none) ∧
    (∀ n rest, f.pq = n :: rest → pqExtractMin f = some (n, { f with pq := rest })) ∧
    (f.pq.length < 2 → mergeOnce f = none) ∧
    ∀ a b rest, f.pq = a :: b :: rest →
      mergeOnce f = some (pqInsert f.nodes.length
        { nodes := f.nodes ++ [Node.internal (weightAt f.nodes a + weightAt f.nodes b) a b], pq := rest })

/-- R149 of spec/41_tree_builder.md, `n` being the number of observed symbols, which is `NSYMS` (spec/10_state.md R36
clause 3), with R144 and step 2 of R148: an internal node's left child stood first in the queue and its right child second,
the queue being then the earlier nodes that no earlier node has as a child. It is the completion of `BUILD` too. -/
def Obligations.BuildShapesTheTree : Prop :=
  ∀ s : State, s.err = 0#8 → s.hasTb = true → ∃ t,
    exec .build s = .next t ∧
    t = { s with nodes := t.nodes, pq := t.pq, tree := t.tree, root := t.root } ∧
    (observed s.ft = [] → t.nodes = [] ∧ t.pq = [] ∧ t.tree = false ∧ t.root = 0) ∧
    (observed s.ft ≠ [] →
      t.nodes.length = 2 * (observed s.ft).length - 1 ∧ t.root = 2 * (observed s.ft).length - 2 ∧
      t.pq = [t.root] ∧ t.tree = true ∧
      (∀ (i : Nat) sym, (observed s.ft)[i]? = some sym → t.nodes[i]? = some (Node.leaf sym (countAt s.ft sym))) ∧
      (∀ i : Nat, (observed s.ft).length ≤ i → i < 2 * (observed s.ft).length - 1 → ∃ l r,
        t.nodes[i]? = some (Node.internal (weightAt t.nodes l + weightAt t.nodes r) l r) ∧ l < i ∧ r < i ∧ l ≠ r) ∧
      (∀ j : Nat, j < 2 * (observed s.ft).length - 2 →
        ∃! i : Nat, ∃ w l r, t.nodes[i]? = some (Node.internal w l r) ∧ (l = j ∨ r = j)) ∧
      (∀ (i : Nat) w l r, t.nodes[i]? = some (Node.internal w l r) →
        QueuedBefore t.nodes l r ∧
        ∀ j, j < i → j ≠ l → j ≠ r →
          (∀ (k : Nat) w' l' r', k < i → t.nodes[k]? = some (Node.internal w' l' r') → j ≠ l' ∧ j ≠ r') →
          QueuedBefore t.nodes r j) ∧
      (∀ i, i < t.nodes.length → weightAt t.nodes i = leafWeight s.ft t.nodes i) ∧
      (countSum s.ft = s.total.toNat → weightAt t.nodes t.root = s.total))

/-- R150 of spec/41_tree_builder.md, for counts that fit 32 bits together, as they do in every state that meets the
invariant (R77). -/
def Obligations.MergeWeightsDoNotDecrease : Prop :=
  ∀ s : State, s.err = 0#8 → s.hasTb = true → countSum s.ft < 2 ^ 32 → ∃ t,
    exec .build s = .next t ∧
    ∀ i j, (observed s.ft).length ≤ i → i ≤ j → j < t.nodes.length →
      (weightAt t.nodes i).toNat ≤ (weightAt t.nodes j).toNat

/-- R152 of spec/41_tree_builder.md: the tree is a function of the frequency table alone. -/
def Obligations.BuildIsAFunctionOfTheCounts : Prop :=
  ∀ s u : State, s.err = 0#8 → s.hasTb = true → u.err = 0#8 → u.hasTb = true → s.ft = u.ft → ∃ t v,
    exec .build s = .next t ∧ exec .build u = .next v ∧
    t.nodes = v.nodes ∧ t.pq = v.pq ∧ t.tree = v.tree ∧ t.root = v.root

/-- R77 of spec/20_memory.md: `TAB` adds without wrapping, and every weight `BUILD` writes is exact and at most
`TOTAL`. -/
def Obligations.CountsAndWeightsNeverWrap : Prop :=
  ∀ s : State, s.Inv → s.err = 0#8 → s.hasTb = true →
    (∀ sym, s.total.toNat ≠ 2 ^ 32 - 1 → ∃ t,
      exec (.tab sym) s = .next t ∧ t.total.toNat = s.total.toNat + 1 ∧
      (countAt t.ft sym).toNat = (countAt s.ft sym).toNat + 1 ∧
      ∀ x, (countAt t.ft x).toNat ≤ t.total.toNat) ∧
    ∃ t, exec .build s = .next t ∧
      (∀ (i : Nat) w l r, t.nodes[i]? = some (Node.internal w l r) →
        w.toNat = (weightAt t.nodes l).toNat + (weightAt t.nodes r).toNat) ∧
      ∀ i, (weightAt t.nodes i).toNat ≤ s.total.toNat

/-! ### The code assigner and the code table -/

/-- R181 of spec/42_code_table.md. -/
def Obligations.CodesFollowTheTree : Prop :=
  ∀ (nodes : List Node) (n : Nat) (p : BitString),
    (∀ (i : Nat) w l r, nodes[i]? = some (Node.internal w l r) → l < i ∧ r < i) →
    (∀ sym w, nodes[n]? = some (Node.leaf sym w) → codes nodes n p = [(sym, p)]) ∧
    (∀ w l r, nodes[n]? = some (Node.internal w l r) →
      codes nodes n p = codes nodes l (p ++ [false]) ++ codes nodes r (p ++ [true]))

/-- R180 of spec/42_code_table.md, with R182 for the tree of one leaf. That the symbols of a tree's leaves differ, which
R180 takes from R149, is a hypothesis of the last clause. -/
def Obligations.AssignStoresTheCodes : Prop :=
  encode .assign = 0x2000#16 ∧
  ∀ s : State, s.err = 0#8 → s.hasTb = true → ∃ t,
    exec .assign s = .next t ∧ (∀ x, countAt t.ft x = 0#32) ∧
    t = { s with
      ct := t.ct, path := [], ft := t.ft, total := 0#32, nsyms := 0#9, nodes := [], pq := [], tree := false, root := 0 } ∧
    (s.tree = false → ∀ x, codeAt t.ct x = []) ∧
    (∀ sym w, s.tree = true → s.nodes[s.root]? = some (Node.leaf sym w) →
      ∀ x, codeAt t.ct x = if x = sym then [false] else []) ∧
    (∀ w l r, s.tree = true → s.nodes[s.root]? = some (Node.internal w l r) →
      ((codes s.nodes s.root []).map Prod.fst).Nodup →
      (∀ x c, (x, c) ∈ codes s.nodes s.root [] → codeAt t.ct x = c) ∧
      ∀ x, x ∉ (codes s.nodes s.root []).map Prod.fst → codeAt t.ct x = [])

/-- R184 of spec/42_code_table.md, clauses 1 to 5, for `BUILD` then `ASSIGN` from any state: the present codes are those
of the observed symbols, each is its leaf's path (or "0" for one symbol), none is longer than the number of symbols less
one, no code is a prefix of another, and from two symbols on they fill the code space. -/
def Obligations.DerivedCodesAreCompleteAndPrefixFree : Prop :=
  ∀ s : State, s.err = 0#8 → s.hasTb = true → ∃ b t,
    exec .build s = .next b ∧ exec .assign b = .next t ∧
    (∀ x, codeAt t.ct x ≠ [] ↔ countAt s.ft x ≠ 0#32) ∧
    (∀ x, 2 ≤ (observed s.ft).length → countAt s.ft x ≠ 0#32 → (x, codeAt t.ct x) ∈ codes b.nodes b.root []) ∧
    (∀ x, (observed s.ft).length = 1 → countAt s.ft x ≠ 0#32 → codeAt t.ct x = [false]) ∧
    (∀ x, countAt s.ft x ≠ 0#32 → 1 ≤ (codeAt t.ct x).length ∧
      (codeAt t.ct x).length ≤ max 1 ((observed s.ft).length - 1) ∧ (codeAt t.ct x).length ≤ 255) ∧
    PrefixFree t.ct ∧
    (2 ≤ (observed s.ft).length → kraftSum t.ct = 2 ^ 255)

/-- R184 of spec/42_code_table.md, clause 6, the weak Huffman property: a strictly more frequent symbol never has a longer
code, for counts that fit 32 bits together, as they do in every state that meets the invariant. -/
def Obligations.MoreFrequentSymbolsHaveNoLongerCodes : Prop :=
  ∀ (s : State) (x y : Symbol), s.err = 0#8 → s.hasTb = true → countSum s.ft < 2 ^ 32 →
    0 < (countAt s.ft y).toNat → (countAt s.ft y).toNat < (countAt s.ft x).toNat → ∃ b t,
      exec .build s = .next b ∧ exec .assign b = .next t ∧
      (codeAt t.ct x).length ≤ (codeAt t.ct y).length

/-- R185 of spec/42_code_table.md. -/
def Obligations.CtclrEmptiesTheTable : Prop :=
  encode .ctclr = 0x2100#16 ∧
  ∀ s : State, s.err = 0#8 → ∃ t,
    exec .ctclr s = .next t ∧ (∀ x, codeAt t.ct x = []) ∧ t = { s with ct := t.ct } ∧
    ∀ x, exec (.enc x) t = .next { t with err := 2#8, errInfo := mkWord 0x30#8 x }

/-- R186 of spec/42_code_table.md. -/
def Obligations.PclrEmptiesThePath : Prop :=
  encode .pclr = 0x2200#16 ∧
  ∀ s : State, s.err = 0#8 →
    exec .pclr s = .next { s with path := [] } ∧
    exec .pclr { s with path := [] } = .next { s with path := [] }

/-- R187 of spec/42_code_table.md. -/
def Obligations.PbitAppendsToThePath : Prop :=
  encode (.pbit false) = 0x2300#16 ∧ encode (.pbit true) = 0x2301#16 ∧
  (∀ (hasTb : Bool) (x : BitVec 8), 2 ≤ x.toNat → ∃ why, decode hasTb (mkWord 0x23#8 x) = .illegal why) ∧
  ∀ (b : Bool) (s : State), s.err = 0#8 →
    (s.path.length = 255 → exec (.pbit b) s = .next { s with err := 4#8, errInfo := encode (.pbit b) }) ∧
    (s.path.length ≠ 255 → exec (.pbit b) s = .next { s with path := s.path ++ [b] })

/-- R188 of spec/42_code_table.md. -/
def Obligations.CtsetStoresThePath : Prop :=
  ∀ (sym : Symbol) (s : State), encode (.ctset sym) = mkWord 0x24#8 sym ∧
    (s.err = 0#8 →
      (s.path = [] → exec (.ctset sym) s = .next { s with err := 3#8, errInfo := mkWord 0x24#8 sym }) ∧
      (s.path ≠ [] → ∃ t, exec (.ctset sym) s = .next t ∧
        (∀ x, codeAt t.ct x = if x = sym then s.path else codeAt s.ct x) ∧
        t = { s with ct := t.ct, path := [] }))

/-- R189 of spec/42_code_table.md. `pack` is that of R226, which has its own statement. -/
def Obligations.CtgetSendsTheCode : Prop :=
  ∀ (sym : Symbol) (s : State), encode (.ctget sym) = mkWord 0x25#8 sym ∧
    (s.err = 0#8 →
      exec (.ctget sym) s = .next { s with
        rsp := s.rsp ++ (BitVec.ofNat 8 (codeAt s.ct sym).length :: pack (codeAt s.ct sym)) } ∧
      (codeAt s.ct sym = [] → exec (.ctget sym) s = .next { s with rsp := s.rsp ++ [0x00#8] })) ∧
    (s.err ≠ 0#8 → exec (.ctget sym) s = .next s) ∧
    (pack (codeAt s.ct sym)).length = ((codeAt s.ct sym).length + 7) / 8

/-! ### The encoder and the packer -/

/-- R210 of spec/43_encoder.md: the two faults in their order, and the code appended whole, for at most seven pending
bits: the stream's pending bits followed by the code are sent in whole bytes, the rest stays pending. -/
def Obligations.EncAppendsTheCode : Prop :=
  ∀ (sym : Symbol) (s : State), encode (.enc sym) = mkWord 0x30#8 sym ∧
    (s.err = 0#8 →
      (codeAt s.ct sym = [] → exec (.enc sym) s = .next { s with err := 2#8, errInfo := mkWord 0x30#8 sym }) ∧
      (codeAt s.ct sym ≠ [] → s.bitLen.toNat + (codeAt s.ct sym).length > 2 ^ 32 - 1 →
        exec (.enc sym) s = .next { s with err := 6#8, errInfo := mkWord 0x30#8 sym }) ∧
      (codeAt s.ct sym ≠ [] → s.bitLen.toNat + (codeAt s.ct sym).length ≤ 2 ^ 32 - 1 → s.acc.length ≤ 7 →
        exec (.enc sym) s = .next { s with
          out := s.out ++ pack (wholeBytes (s.acc ++ codeAt s.ct sym))
          acc := pendingBits (s.acc ++ codeAt s.ct sym)
          bitLen := BitVec.ofNat 32 (s.bitLen.toNat + (codeAt s.ct sym).length) } ∧
        (pack (wholeBytes (s.acc ++ codeAt s.ct sym))).length = (s.acc.length + (codeAt s.ct sym).length) / 8 ∧
        ((codeAt s.ct sym).length ≤ 255 → (pack (wholeBytes (s.acc ++ codeAt s.ct sym))).length ≤ 32)))

/-- R221 of spec/44_bitpacker.md, for at most seven pending bits. -/
def Obligations.PkbitAppendsTheBit : Prop :=
  encode (.pkbit false) = 0x4000#16 ∧ encode (.pkbit true) = 0x4001#16 ∧
  (∀ (hasTb : Bool) (x : BitVec 8), 2 ≤ x.toNat → ∃ why, decode hasTb (mkWord 0x40#8 x) = .illegal why) ∧
  ∀ (b : Bool) (s : State), s.err = 0#8 → s.acc.length ≤ 7 →
    (s.bitLen.toNat = 2 ^ 32 - 1 → exec (.pkbit b) s = .next { s with err := 6#8, errInfo := encode (.pkbit b) }) ∧
    (s.bitLen.toNat ≠ 2 ^ 32 - 1 → s.acc.length = 7 → exec (.pkbit b) s = .next { s with
      out := s.out ++ [byteOf (s.acc ++ [b])], acc := [], bitLen := s.bitLen + 1#32 }) ∧
    (s.bitLen.toNat ≠ 2 ^ 32 - 1 → s.acc.length ≠ 7 → exec (.pkbit b) s = .next { s with
      acc := s.acc ++ [b], bitLen := s.bitLen + 1#32 })

/-- R222 of spec/44_bitpacker.md. The byte is that of R60 of spec/20_memory.md: its bit `7 - j` is `ACC[j]`, the missing
bits 0. -/
def Obligations.FlushEndsTheStream : Prop :=
  encode .flush = 0x4100#16 ∧
  (∀ (t : BitString) (j : Nat), j < 8 → (byteOf t).getLsbD (7 - j) = t.getD j false) ∧
  ∀ s : State, s.err = 0#8 →
    (s.acc ≠ [] → exec .flush s = .next { s with
      out := s.out ++ [byteOf s.acc], lastLen := s.bitLen, bitLen := 0#32, acc := [] }) ∧
    (s.acc = [] → exec .flush s = .next { s with lastLen := s.bitLen, bitLen := 0#32, acc := [] })

/-- R78 of spec/20_memory.md. -/
def Obligations.BitlenNeverWraps : Prop :=
  ∀ s : State, s.err = 0#8 →
    (∀ b, s.bitLen.toNat = 2 ^ 32 - 1 →
      exec (.pkbit b) s = .next { s with err := 6#8, errInfo := encode (.pkbit b) }) ∧
    (∀ b, s.bitLen.toNat ≠ 2 ^ 32 - 1 → ∃ t,
      exec (.pkbit b) s = .next t ∧ t.err = 0#8 ∧ t.bitLen.toNat = s.bitLen.toNat + 1) ∧
    (∀ sym, codeAt s.ct sym ≠ [] → s.bitLen.toNat + (codeAt s.ct sym).length > 2 ^ 32 - 1 →
      exec (.enc sym) s = .next { s with err := 6#8, errInfo := encode (.enc sym) }) ∧
    (∀ sym, codeAt s.ct sym ≠ [] → s.bitLen.toNat + (codeAt s.ct sym).length ≤ 2 ^ 32 - 1 → ∃ t,
      exec (.enc sym) s = .next t ∧ t.err = 0#8 ∧
      t.bitLen.toNat = s.bitLen.toNat + (codeAt s.ct sym).length)

/-- R226 of spec/44_bitpacker.md. -/
def Obligations.PackPlacesTheBits : Prop :=
  ∀ s : BitString, (pack s).length = (s.length + 7) / 8 ∧
    ∀ (i j : Nat) B, j < 8 → (pack s)[i]? = some B → B.getLsbD (7 - j) = s.getD (8 * i + j) false

/-- R227 of spec/44_bitpacker.md. -/
def Obligations.UnpackingThePackingGivesTheBits : Prop :=
  (∀ s : BitString, unpack (pack s) s.length = s) ∧
  (∀ (B : List Byte) (len : Nat), len ≤ 8 * B.length → (unpack B len).length = len ∧
    ∀ k b, k < len → B[k / 8]? = some b → (unpack B len)[k]? = some (b.getLsbD (7 - k % 8))) ∧
  pack [true] = [0x80#8] ∧ pack [true, false] = [0x80#8]

/-- R223 and R225 of spec/44_bitpacker.md: what a sequence of `ENC` and `PKBIT` commands that does not fault sends and
holds, and what `FLUSH` adds. -/
def Obligations.StreamingPackerIsPack : Prop :=
  ∀ (is : List Instr) (s t : State), (∀ i ∈ is, appendsBits i = true) →
    s.err = 0#8 → s.acc = [] → s.bitLen = 0#32 → runCommands is s = .next t → t.err = 0#8 →
    t.out = s.out ++ pack (wholeBytes (is.flatMap (streamBits s.ct))) ∧
    t.acc = pendingBits (is.flatMap (streamBits s.ct)) ∧
    t.bitLen.toNat = (is.flatMap (streamBits s.ct)).length ∧
    exec .flush t = .next { t with
      out := s.out ++ pack (is.flatMap (streamBits s.ct))
      lastLen := BitVec.ofNat 32 (is.flatMap (streamBits s.ct)).length
      bitLen := 0#32
      acc := [] } ∧
    (pack (is.flatMap (streamBits s.ct))).length = ((is.flatMap (streamBits s.ct)).length + 7) / 8

/-- R211 of spec/43_encoder.md. -/
def Obligations.EncodingATextPacksItsCodes : Prop :=
  ∀ (text : List Symbol) (s : State), s.err = 0#8 → s.acc = [] → s.bitLen = 0#32 →
    (∀ x ∈ text, codeAt s.ct x ≠ []) → (text.flatMap (codeAt s.ct)).length ≤ 2 ^ 32 - 1 →
    runCommands (text.map .enc ++ [.flush]) s = .next { s with
      out := s.out ++ pack (text.flatMap (codeAt s.ct))
      lastLen := BitVec.ofNat 32 (text.flatMap (codeAt s.ct)).length } ∧
    (text.flatMap (codeAt s.ct)).length = (text.map fun x => (codeAt s.ct x).length).sum ∧
    (text.flatMap (codeAt s.ct)).length = (allSymbols.map fun x => text.count x * (codeAt s.ct x).length).sum

/-- R212 of spec/43_encoder.md: `TAB` for each symbol of a text, `BUILD`, `ASSIGN`, then `ENC` for each symbol of the same
text never end in `LookupMiss`, from every state that meets the invariant and records no fault. -/
def Obligations.OwnTableNeverMisses : Prop :=
  ∀ (text : List Symbol) (s t : State), s.Inv → s.err = 0#8 → s.hasTb = true →
    runCommands (text.map .tab ++ [.build, .assign] ++ text.map .enc) s = .next t → t.err ≠ 2#8

/-- R294 of spec/70_reset_and_hazards.md, one command at a time: as long as no fault is recorded and no reset comes, the
bytes sent are the packings of the streams flushed, then the whole bytes of the open one. -/
def Obligations.EveryCommandKeepsTheStream : Prop :=
  ∀ (done : List Byte) (bits : BitString) (i : Instr) (s t : State),
    s.StreamIs done bits → s.err = 0#8 → exec i s = .next t → t.err = 0#8 → i ≠ .reset →
    (i ≠ .flush → t.StreamIs done (bits ++ streamBits s.ct i) ∧ t.lastLen = s.lastLen) ∧
    (i = .flush → t.StreamIs (done ++ pack bits) [] ∧ t.lastLen.toNat = bits.length)

/-! ### Faults -/

/-- R240 of spec/60_exceptions.md: which word faults with which code, and what is recorded. -/
def Obligations.FaultCausesAreTheTable : Prop :=
  ∀ (s t : State) (w : Word16), s.err = 0#8 → execWord w s = .next t →
    (t.err = 1#8 ↔ ∃ why, decode s.hasTb w = .illegal why) ∧
    (t.err = 2#8 ↔ ∃ sym, decode s.hasTb w = .command (.enc sym) ∧ codeAt s.ct sym = []) ∧
    (t.err = 3#8 ↔ ∃ sym, decode s.hasTb w = .command (.ctset sym) ∧ s.path = []) ∧
    (t.err = 4#8 ↔ ∃ b, decode s.hasTb w = .command (.pbit b) ∧ s.path.length = 255) ∧
    (t.err = 5#8 ↔ ∃ sym, decode s.hasTb w = .command (.tab sym) ∧ s.total.toNat = 2 ^ 32 - 1) ∧
    (t.err = 6#8 ↔
      (∃ b, decode s.hasTb w = .command (.pkbit b) ∧ s.bitLen.toNat = 2 ^ 32 - 1) ∨
      ∃ sym, decode s.hasTb w = .command (.enc sym) ∧ codeAt s.ct sym ≠ [] ∧
        s.bitLen.toNat + (codeAt s.ct sym).length > 2 ^ 32 - 1) ∧
    t.err.toNat ≤ 6 ∧
    (t.err ≠ 0#8 → t = { s with err := t.err, errInfo := w })

/-- R250, R251 of spec/60_exceptions.md: a step that enters the fault state changes `ERR` and `ERRINFO` and nothing else
but taking the word, and it sends nothing. -/
def Obligations.FaultsArePrecise : Prop :=
  ∀ (s t : State), s.err = 0#8 → step s = .next t → t.err ≠ 0#8 →
    ∃ w rest, s.cmd = .word w :: rest ∧ t = { s with cmd := rest, err := t.err, errInfo := w } ∧
      faultFlag t = true

/-- R252 of spec/60_exceptions.md. -/
def Obligations.FaultStateDropsOtherWords : Prop :=
  ∀ (s : State) (w : Word16), s.err ≠ 0#8 →
    (decode s.hasTb w = .command .reset → execWord w s = exec .reset s) ∧
    (∀ r, decode s.hasTb w = .command (.rdsr r) → execWord w s = exec (.rdsr r) s) ∧
    (decode s.hasTb w ≠ .command .reset → (∀ r, decode s.hasTb w ≠ .command (.rdsr r)) → execWord w s = .next s)

/-- R254 of spec/60_exceptions.md: a step that leaves the fault state is `RESET` or `rst`, and it clears all state.
`rst` comes between commands, as an input of the host (log 3). -/
def Obligations.OnlyResetLeavesTheFaultState : Prop :=
  ∀ s t : State, s.err ≠ 0#8 → step s = .next t → t.err = 0#8 →
    ∃ rest, (s.cmd = .word 0x0100#16 :: rest ∨ s.cmd = .rst :: rest) ∧
      t = { State.resetOf s.hasTb with cmd := rest, out := s.out, rsp := s.rsp }

/-- R255 of spec/60_exceptions.md: the recorded fault is the first one. -/
def Obligations.TheFirstFaultIsKept : Prop :=
  ∀ s t : State, s.err ≠ 0#8 → step s = .next t → t.err ≠ 0#8 → t.err = s.err ∧ t.errInfo = s.errInfo

/-- R144 of spec/41_tree_builder.md and R247 of spec/60_exceptions.md: `BUILD` never finds the queue empty, and no command
puts the code 7 in `ERR`. -/
def Obligations.QueueEmptyIsNeverRaised : Prop :=
  (∀ ft, ∃ f, buildForest ft = some f) ∧
  ∀ (i : Instr) (s t : State), exec i s = .next t → t.err = 7#8 → s.err = 7#8

/-- R248 of spec/60_exceptions.md: the events that are not faults. -/
def Obligations.NonFaultEventsDoNotFault : Prop :=
  ∀ s : State, s.err = 0#8 → s.hasTb = true →
    (observed s.ft = [] → ∃ t, exec .build s = .next t ∧ t.err = 0#8 ∧ t.tree = false) ∧
    (s.tree = false → ∃ t, exec .assign s = .next t ∧ t.err = 0#8 ∧ ∀ x, codeAt t.ct x = []) ∧
    (s.acc = [] → s.bitLen = 0#32 → exec .flush s = .next { s with lastLen := 0#32 }) ∧
    (∀ x, codeAt s.ct x = [] → exec (.ctget x) s = .next { s with rsp := s.rsp ++ [0x00#8] }) ∧
    (∀ x, countAt s.ft x = 0#32 →
      exec (.fget x) s = .next { s with rsp := s.rsp ++ [0x00#8, 0x00#8, 0x00#8, 0x00#8] }) ∧
    (∀ x, s.path ≠ [] → codeAt s.ct x ≠ [] → ∃ t, exec (.ctset x) s = .next t ∧ t.err = 0#8 ∧ codeAt t.ct x = s.path) ∧
    (∀ x, observed s.ft = [x] → ∃ b t, exec .build s = .next b ∧ exec .assign b = .next t ∧ t.err = 0#8 ∧
      codeAt t.ct x = [false])

/-! ### Invariants and frames over all commands -/

/-- R36 of spec/10_state.md holds after reset, on either build. -/
def Obligations.InvariantHoldsAtReset : Prop :=
  (State.resetOf true).Inv ∧ (State.resetOf false).Inv ∧ State.reset.Inv

/-- R36 of spec/10_state.md: every step keeps the invariant, from every state that meets it. -/
def Obligations.EveryStepKeepsTheInvariant : Prop :=
  ∀ s t : State, s.Inv → step s = .next t → t.Inv

/-- R52 of spec/10_state.md: the parameter `HAS_TB` is no engine state; no step changes it. -/
def Obligations.NoStepChangesTheBuild : Prop :=
  ∀ s t : State, step s = .next t → t.hasTb = s.hasTb

/-- R22, R23 of spec/10_state.md: the only writers of `CT` are `ASSIGN`, `CTCLR`, `CTSET`, `RESET`, and of `PATH`
`PBIT`, `PCLR`, `CTSET`, `ASSIGN`, `RESET`. -/
def Obligations.CodeTableAndPathWriters : Prop :=
  ∀ (i : Instr) (s t : State), exec i s = .next t → i ≠ .reset → i ≠ .assign → (∀ sym, i ≠ .ctset sym) →
    (i ≠ .ctclr → t.ct = s.ct) ∧ (i ≠ .pclr → (∀ b, i ≠ .pbit b) → t.path = s.path)

/-- R24 to R28 of spec/10_state.md: the only writers of `ACC` and `BITLEN` are `ENC`, `PKBIT`, `FLUSH`, `RESET`, of
`LASTLEN` `FLUSH` and `RESET`, and of `ERR` and `ERRINFO` fault entry and `RESET`. -/
def Obligations.PackerAndFaultRegisterWriters : Prop :=
  ∀ (i : Instr) (s t : State), exec i s = .next t → i ≠ .reset →
    ((∀ sym, i ≠ .enc sym) → (∀ b, i ≠ .pkbit b) → i ≠ .flush → t.acc = s.acc ∧ t.bitLen = s.bitLen) ∧
    (i ≠ .flush → t.lastLen = s.lastLen) ∧
    ((t.err = s.err ∧ t.errInfo = s.errInfo) ∨ ∃ c, s.err = 0#8 ∧ t = { s with err := errCode c, errInfo := encode i })

/-- R29 to R35 of spec/10_state.md: the only writers of `FT`, `TOTAL`, `NSYMS` are `TAB`, `FCLR`, `ASSIGN`, `RESET`, and
of `NODE`, `PQ`, `TREE`, `ROOT` `BUILD`, `FCLR`, `ASSIGN`, `RESET`. -/
def Obligations.TreeBuilderStateWriters : Prop :=
  ∀ (i : Instr) (s t : State), exec i s = .next t → i ≠ .reset → i ≠ .fclr → i ≠ .assign →
    ((∀ sym, i ≠ .tab sym) → t.ft = s.ft ∧ t.total = s.total ∧ t.nsyms = s.nsyms) ∧
    (i ≠ .build → t.nodes = s.nodes ∧ t.pq = s.pq ∧ t.tree = s.tree ∧ t.root = s.root)

/-- R62, R66, R67 of spec/20_memory.md and R52 of spec/10_state.md: no command, `RESET` among them, changes a byte already
handed over or a word not yet taken; `OUT` grows by `ENC`, `PKBIT`, `FLUSH` only, `RSP` by `RDSR`, `FGET`, `CTGET`
only. -/
def Obligations.StreamsOnlyGrow : Prop :=
  ∀ (i : Instr) (s t : State), exec i s = .next t →
    s.out <+: t.out ∧ s.rsp <+: t.rsp ∧ t.cmd = s.cmd ∧
    ((∀ sym, i ≠ .enc sym) → (∀ b, i ≠ .pkbit b) → i ≠ .flush → t.out = s.out) ∧
    ((∀ r, i ≠ .rdsr r) → (∀ sym, i ≠ .fget sym) → (∀ sym, i ≠ .ctget sym) → t.rsp = s.rsp)

/-- R72 of spec/20_memory.md: a read sends bytes and changes nothing else, and reading again sends the same bytes. -/
def Obligations.ReadsHaveNoSideEffect : Prop :=
  ∀ (i : Instr) (s : State), s.err = 0#8 → i.wf s.hasTb = true →
    ((∃ r, i = .rdsr r) ∨ (∃ sym, i = .fget sym) ∨ ∃ sym, i = .ctget sym) → ∃ bytes,
      exec i s = .next { s with rsp := s.rsp ++ bytes } ∧
      exec i { s with rsp := s.rsp ++ bytes } = .next { s with rsp := s.rsp ++ bytes ++ bytes }
end

