-- ==== Sys2Proof/Laws/Bits.lean ====
section
/-! SUPPORT. Bytes and bit-strings: the bits of `byteOf`, the length and the pieces of `pack`. -/

namespace Sys2Proof.Machine

theorem msbValue_lt (n : Nat) (t : BitString) : msbValue n t < 2 ^ n := by
  induction n generalizing t with
  | zero => simp [msbValue]
  | succ n ih =>
    cases t with
    | nil => simp [msbValue]
    | cons b t =>
      have := ih t
      have hb : b.toNat ≤ 1 := Bool.toNat_le b
      simp only [msbValue, Nat.pow_succ]
      nlinarith [Nat.mul_le_mul_right (2 ^ n) hb]

/-- Bit `n - 1 - j` of the value is the `j`th bit read. -/
theorem msbValue_testBit (n j : Nat) (t : BitString) (hj : j < n) :
    (msbValue n t).testBit (n - 1 - j) = t.getD j false := by
  induction n generalizing t j with
  | zero => omega
  | succ n ih =>
    cases t with
    | nil => simp [msbValue]
    | cons b t =>
      rw [msbValue, Nat.mul_comm, Nat.testBit_two_pow_mul_add _ (msbValue_lt n t)]
      cases j with
      | zero => cases b <;> simp
      | succ j =>
        have h1 : n + 1 - 1 - (j + 1) = n - 1 - j := by omega
        have h2 : n - 1 - j < n := by omega
        rw [h1, if_pos h2, ih j t (by omega)]
        simp

/-- Bit `7 - j` of `byteOf t` is bit `j` of `t`, or 0 where `t` has none (spec/20_memory.md R60). -/
theorem byteOf_getLsbD (t : BitString) (j : Nat) (hj : j < 8) :
    (byteOf t).getLsbD (7 - j) = t.getD j false := by
  rw [byteOf, BitVec.getLsbD_ofNat, msbValue_testBit 8 j t hj]
  simp [show 7 - j < 8 by omega]

@[simp] theorem packBytes_length (n : Nat) (s : BitString) : (packBytes n s).length = n := by
  induction n generalizing s with
  | zero => rfl
  | succ n ih => simp [packBytes, ih]

@[simp] theorem pack_length (s : BitString) : (pack s).length = (s.length + 7) / 8 := by
  simp [pack]

@[simp] theorem pack_nil : pack [] = [] := rfl

/-- Byte `i` of the packing is made of the bits `8i` to `8i + 7`. -/
theorem packBytes_getElem? (n i : Nat) (s : BitString) (hi : i < n) :
    (packBytes n s)[i]? = some (byteOf ((s.drop (8 * i)).take 8)) := by
  induction n generalizing s i with
  | zero => omega
  | succ n ih =>
    cases i with
    | zero => simp [packBytes]
    | succ i =>
      rw [packBytes, List.getElem?_cons_succ, ih i _ (by omega), List.drop_drop,
        show 8 + 8 * i = 8 * (i + 1) by ring]

theorem packBytes_append (m n : Nat) (a b : BitString) (ha : a.length = 8 * m) :
    packBytes (m + n) (a ++ b) = packBytes m a ++ packBytes n b := by
  induction m generalizing a with
  | zero =>
    have : a = [] := List.eq_nil_of_length_eq_zero (by omega)
    simp [this, packBytes]
  | succ m ih =>
    have h8 : 8 ≤ a.length := by omega
    rw [show m + 1 + n = (m + n) + 1 by ring, packBytes, packBytes, List.take_append_of_le_length h8,
      List.drop_append_of_le_length h8, ih (a.drop 8) (by simp; omega)]
    rfl

/-- Packing goes byte by byte: a prefix of whole bytes can be packed on its own. -/
theorem pack_append (a b : BitString) (ha : a.length % 8 = 0) : pack (a ++ b) = pack a ++ pack b := by
  have h1 : a.length = 8 * (a.length / 8) := by omega
  rw [pack, pack, pack, List.length_append,
    show (a.length + b.length + 7) / 8 = a.length / 8 + (b.length + 7) / 8 by omega,
    packBytes_append _ _ a b h1, show (a.length + 7) / 8 = a.length / 8 by omega]

/-- Up to eight bits, and at least one, make one byte. -/
theorem pack_one_byte (t : BitString) (h0 : 0 < t.length) (h8 : t.length ≤ 8) : pack t = [byteOf t] := by
  rw [pack, show (t.length + 7) / 8 = 1 by omega]
  simp [packBytes, List.take_of_length_le h8]

end Sys2Proof.Machine
end

