-- ==== Sys2Proof/Laws/Decode.lean ====
section
/-! SUPPORT. The fields of a word, and what each opcode decodes to. -/

namespace Sys2Proof

/-- The bits of a word made of two fields. -/
theorem mkWord_getLsbD (op arg : BitVec 8) (i : Nat) :
    (mkWord op arg).getLsbD i = if i < 8 then arg.getLsbD i else op.getLsbD (i - 8) :=
  BitVec.getLsbD_append.trans (by cases h : decide (i < 8) <;> simp_all)

@[simp] theorem opField_mkWord (op arg : BitVec 8) : opField (mkWord op arg) = op := by
  apply BitVec.eq_of_getLsbD_eq
  intro i hi
  rw [opField, BitVec.getLsbD_extractLsb', mkWord_getLsbD]
  simp [hi]

@[simp] theorem argField_mkWord (op arg : BitVec 8) : argField (mkWord op arg) = arg := by
  apply BitVec.eq_of_getLsbD_eq
  intro i hi
  rw [argField, BitVec.getLsbD_extractLsb', mkWord_getLsbD]
  simp [hi]

/-- A word is made of its two fields. -/
theorem mkWord_fields (w : Word16) : mkWord (opField w) (argField w) = w := by
  apply BitVec.eq_of_getLsbD_eq
  intro i hi
  rw [mkWord_getLsbD, opField, argField, BitVec.getLsbD_extractLsb', BitVec.getLsbD_extractLsb']
  split
  · simp [*]
  · simp [show 8 + (i - 8) = i by omega, show i - 8 < 8 by omega]
@[simp] theorem opField_encode (i : Instr) : opField (encode i) = opOf i := by simp [encode]

@[simp] theorem argField_encode (i : Instr) : argField (encode i) = argOf i := by simp [encode]

/-- Decoding a command's word is reading the opcode map at the command's fields. -/
theorem decode_encode_fields (hasTb : Bool) (i : Instr) :
    decode hasTb (encode i) = decodeFields hasTb (opOf i) (argOf i) := by simp [decode]

theorem formatZ_eq_command {arg : BitVec 8} {i j : Instr} :
    formatZ arg i = .command j ↔ arg = 0#8 ∧ j = i := by
  unfold formatZ; split <;> simp [*, eq_comm (a := i)]

theorem formatS_eq_command {arg : BitVec 8} {i : Symbol → Instr} {j : Instr} :
    formatS arg i = .command j ↔ j = i arg := by simp [formatS, eq_comm]

theorem formatB_eq_command {arg : BitVec 8} {i : Bool → Instr} {j : Instr} :
    formatB arg i = .command j ↔ arg.toNat ≤ 1 ∧ j = i (arg.getLsbD 0) := by
  unfold formatB; split <;> simp [*, eq_comm (a := j)]

theorem formatR_eq_command {arg : BitVec 8} {i : BitVec 8 → Instr} {j : Instr} :
    formatR arg i = .command j ↔ arg.toNat ≤ Config.lastStatusReg ∧ j = i arg := by
  unfold formatR; split <;> simp [*, eq_comm (a := j)]

theorem ofTbUnit_eq_command {hasTb : Bool} {d : Decoded} {j : Instr} :
    ofTbUnit hasTb d = .command j ↔ hasTb = true ∧ d = .command j := by
  cases d <;> cases hasTb <;> simp [ofTbUnit]

/-- An `arg` of at most one is the `arg` of its own lowest bit. -/
theorem bitArg_getLsbD (arg : BitVec 8) (h : arg.toNat ≤ 1) : bitArg (arg.getLsbD 0) = arg := by
  have h2 : arg = 0#8 ∨ arg = 1#8 := by
    rcases Nat.le_one_iff_eq_zero_or_eq_one.mp h with h | h
    · exact .inl (BitVec.eq_of_toNat_eq h)
    · exact .inr (BitVec.eq_of_toNat_eq h)
  rcases h2 with rfl | rfl <;> rfl

end Sys2Proof
end

