-- ==== Sys2Proof/Laws/State.lean ====
section
/-! SUPPORT. What each named operation leaves in each field of the state, one lemma per field, so that no later proof
unfolds an update. -/

namespace Sys2Proof.Machine

/-! ### `emitOut` -/

@[simp] theorem emitOut_ct (bytes : List Byte) (s : State) : (emitOut bytes s).ct = s.ct := rfl
@[simp] theorem emitOut_path (bytes : List Byte) (s : State) : (emitOut bytes s).path = s.path := rfl
@[simp] theorem emitOut_acc (bytes : List Byte) (s : State) : (emitOut bytes s).acc = s.acc := rfl
@[simp] theorem emitOut_bitLen (bytes : List Byte) (s : State) : (emitOut bytes s).bitLen = s.bitLen := rfl
@[simp] theorem emitOut_lastLen (bytes : List Byte) (s : State) : (emitOut bytes s).lastLen = s.lastLen := rfl
@[simp] theorem emitOut_err (bytes : List Byte) (s : State) : (emitOut bytes s).err = s.err := rfl
@[simp] theorem emitOut_errInfo (bytes : List Byte) (s : State) : (emitOut bytes s).errInfo = s.errInfo := rfl
@[simp] theorem emitOut_ft (bytes : List Byte) (s : State) : (emitOut bytes s).ft = s.ft := rfl
@[simp] theorem emitOut_total (bytes : List Byte) (s : State) : (emitOut bytes s).total = s.total := rfl
@[simp] theorem emitOut_nsyms (bytes : List Byte) (s : State) : (emitOut bytes s).nsyms = s.nsyms := rfl
@[simp] theorem emitOut_nodes (bytes : List Byte) (s : State) : (emitOut bytes s).nodes = s.nodes := rfl
@[simp] theorem emitOut_pq (bytes : List Byte) (s : State) : (emitOut bytes s).pq = s.pq := rfl
@[simp] theorem emitOut_tree (bytes : List Byte) (s : State) : (emitOut bytes s).tree = s.tree := rfl
@[simp] theorem emitOut_root (bytes : List Byte) (s : State) : (emitOut bytes s).root = s.root := rfl
@[simp] theorem emitOut_hasTb (bytes : List Byte) (s : State) : (emitOut bytes s).hasTb = s.hasTb := rfl
@[simp] theorem emitOut_cmd (bytes : List Byte) (s : State) : (emitOut bytes s).cmd = s.cmd := rfl
@[simp] theorem emitOut_out (bytes : List Byte) (s : State) : (emitOut bytes s).out = s.out ++ bytes := rfl
@[simp] theorem emitOut_rsp (bytes : List Byte) (s : State) : (emitOut bytes s).rsp = s.rsp := rfl

/-! ### `emitRsp` -/

@[simp] theorem emitRsp_ct (bytes : List Byte) (s : State) : (emitRsp bytes s).ct = s.ct := rfl
@[simp] theorem emitRsp_path (bytes : List Byte) (s : State) : (emitRsp bytes s).path = s.path := rfl
@[simp] theorem emitRsp_acc (bytes : List Byte) (s : State) : (emitRsp bytes s).acc = s.acc := rfl
@[simp] theorem emitRsp_bitLen (bytes : List Byte) (s : State) : (emitRsp bytes s).bitLen = s.bitLen := rfl
@[simp] theorem emitRsp_lastLen (bytes : List Byte) (s : State) : (emitRsp bytes s).lastLen = s.lastLen := rfl
@[simp] theorem emitRsp_err (bytes : List Byte) (s : State) : (emitRsp bytes s).err = s.err := rfl
@[simp] theorem emitRsp_errInfo (bytes : List Byte) (s : State) : (emitRsp bytes s).errInfo = s.errInfo := rfl
@[simp] theorem emitRsp_ft (bytes : List Byte) (s : State) : (emitRsp bytes s).ft = s.ft := rfl
@[simp] theorem emitRsp_total (bytes : List Byte) (s : State) : (emitRsp bytes s).total = s.total := rfl
@[simp] theorem emitRsp_nsyms (bytes : List Byte) (s : State) : (emitRsp bytes s).nsyms = s.nsyms := rfl
@[simp] theorem emitRsp_nodes (bytes : List Byte) (s : State) : (emitRsp bytes s).nodes = s.nodes := rfl
@[simp] theorem emitRsp_pq (bytes : List Byte) (s : State) : (emitRsp bytes s).pq = s.pq := rfl
@[simp] theorem emitRsp_tree (bytes : List Byte) (s : State) : (emitRsp bytes s).tree = s.tree := rfl
@[simp] theorem emitRsp_root (bytes : List Byte) (s : State) : (emitRsp bytes s).root = s.root := rfl
@[simp] theorem emitRsp_hasTb (bytes : List Byte) (s : State) : (emitRsp bytes s).hasTb = s.hasTb := rfl
@[simp] theorem emitRsp_cmd (bytes : List Byte) (s : State) : (emitRsp bytes s).cmd = s.cmd := rfl
@[simp] theorem emitRsp_out (bytes : List Byte) (s : State) : (emitRsp bytes s).out = s.out := rfl
@[simp] theorem emitRsp_rsp (bytes : List Byte) (s : State) : (emitRsp bytes s).rsp = s.rsp ++ bytes := rfl

/-! ### `faulted` -/

@[simp] theorem faulted_ct (c : FaultCode) (w : Word16) (s : State) : (faulted c w s).ct = s.ct := rfl
@[simp] theorem faulted_path (c : FaultCode) (w : Word16) (s : State) : (faulted c w s).path = s.path := rfl
@[simp] theorem faulted_acc (c : FaultCode) (w : Word16) (s : State) : (faulted c w s).acc = s.acc := rfl
@[simp] theorem faulted_bitLen (c : FaultCode) (w : Word16) (s : State) : (faulted c w s).bitLen = s.bitLen := rfl
@[simp] theorem faulted_lastLen (c : FaultCode) (w : Word16) (s : State) : (faulted c w s).lastLen = s.lastLen := rfl
@[simp] theorem faulted_err (c : FaultCode) (w : Word16) (s : State) : (faulted c w s).err = errCode c := rfl
@[simp] theorem faulted_errInfo (c : FaultCode) (w : Word16) (s : State) : (faulted c w s).errInfo = w := rfl
@[simp] theorem faulted_ft (c : FaultCode) (w : Word16) (s : State) : (faulted c w s).ft = s.ft := rfl
@[simp] theorem faulted_total (c : FaultCode) (w : Word16) (s : State) : (faulted c w s).total = s.total := rfl
@[simp] theorem faulted_nsyms (c : FaultCode) (w : Word16) (s : State) : (faulted c w s).nsyms = s.nsyms := rfl
@[simp] theorem faulted_nodes (c : FaultCode) (w : Word16) (s : State) : (faulted c w s).nodes = s.nodes := rfl
@[simp] theorem faulted_pq (c : FaultCode) (w : Word16) (s : State) : (faulted c w s).pq = s.pq := rfl
@[simp] theorem faulted_tree (c : FaultCode) (w : Word16) (s : State) : (faulted c w s).tree = s.tree := rfl
@[simp] theorem faulted_root (c : FaultCode) (w : Word16) (s : State) : (faulted c w s).root = s.root := rfl
@[simp] theorem faulted_hasTb (c : FaultCode) (w : Word16) (s : State) : (faulted c w s).hasTb = s.hasTb := rfl
@[simp] theorem faulted_cmd (c : FaultCode) (w : Word16) (s : State) : (faulted c w s).cmd = s.cmd := rfl
@[simp] theorem faulted_out (c : FaultCode) (w : Word16) (s : State) : (faulted c w s).out = s.out := rfl
@[simp] theorem faulted_rsp (c : FaultCode) (w : Word16) (s : State) : (faulted c w s).rsp = s.rsp := rfl

/-! ### `engineReset` -/

@[simp] theorem engineReset_ct  (s : State) : (engineReset s).ct = noCodes := rfl
@[simp] theorem engineReset_path  (s : State) : (engineReset s).path = [] := rfl
@[simp] theorem engineReset_acc  (s : State) : (engineReset s).acc = [] := rfl
@[simp] theorem engineReset_bitLen  (s : State) : (engineReset s).bitLen = 0#32 := rfl
@[simp] theorem engineReset_lastLen  (s : State) : (engineReset s).lastLen = 0#32 := rfl
@[simp] theorem engineReset_err  (s : State) : (engineReset s).err = 0#8 := rfl
@[simp] theorem engineReset_errInfo  (s : State) : (engineReset s).errInfo = 0#16 := rfl
@[simp] theorem engineReset_ft  (s : State) : (engineReset s).ft = noCounts := rfl
@[simp] theorem engineReset_total  (s : State) : (engineReset s).total = 0#32 := rfl
@[simp] theorem engineReset_nsyms  (s : State) : (engineReset s).nsyms = 0#9 := rfl
@[simp] theorem engineReset_nodes  (s : State) : (engineReset s).nodes = [] := rfl
@[simp] theorem engineReset_pq  (s : State) : (engineReset s).pq = [] := rfl
@[simp] theorem engineReset_tree  (s : State) : (engineReset s).tree = false := rfl
@[simp] theorem engineReset_root  (s : State) : (engineReset s).root = 0 := rfl
@[simp] theorem engineReset_hasTb  (s : State) : (engineReset s).hasTb = s.hasTb := rfl
@[simp] theorem engineReset_cmd  (s : State) : (engineReset s).cmd = s.cmd := rfl
@[simp] theorem engineReset_out  (s : State) : (engineReset s).out = s.out := rfl
@[simp] theorem engineReset_rsp  (s : State) : (engineReset s).rsp = s.rsp := rfl

/-! ### `countSymbol` -/

@[simp] theorem countSymbol_ct (sym : Symbol) (s : State) : (countSymbol sym s).ct = s.ct := rfl
@[simp] theorem countSymbol_path (sym : Symbol) (s : State) : (countSymbol sym s).path = s.path := rfl
@[simp] theorem countSymbol_acc (sym : Symbol) (s : State) : (countSymbol sym s).acc = s.acc := rfl
@[simp] theorem countSymbol_bitLen (sym : Symbol) (s : State) : (countSymbol sym s).bitLen = s.bitLen := rfl
@[simp] theorem countSymbol_lastLen (sym : Symbol) (s : State) : (countSymbol sym s).lastLen = s.lastLen := rfl
@[simp] theorem countSymbol_err (sym : Symbol) (s : State) : (countSymbol sym s).err = s.err := rfl
@[simp] theorem countSymbol_errInfo (sym : Symbol) (s : State) : (countSymbol sym s).errInfo = s.errInfo := rfl
@[simp] theorem countSymbol_ft (sym : Symbol) (s : State) : (countSymbol sym s).ft = setCount s.ft sym (countAt s.ft sym + 1#32) := rfl
@[simp] theorem countSymbol_total (sym : Symbol) (s : State) : (countSymbol sym s).total = s.total + 1#32 := rfl
@[simp] theorem countSymbol_nsyms (sym : Symbol) (s : State) : (countSymbol sym s).nsyms = if countAt s.ft sym = 0#32 then s.nsyms + 1#9 else s.nsyms := rfl
@[simp] theorem countSymbol_nodes (sym : Symbol) (s : State) : (countSymbol sym s).nodes = s.nodes := rfl
@[simp] theorem countSymbol_pq (sym : Symbol) (s : State) : (countSymbol sym s).pq = s.pq := rfl
@[simp] theorem countSymbol_tree (sym : Symbol) (s : State) : (countSymbol sym s).tree = s.tree := rfl
@[simp] theorem countSymbol_root (sym : Symbol) (s : State) : (countSymbol sym s).root = s.root := rfl
@[simp] theorem countSymbol_hasTb (sym : Symbol) (s : State) : (countSymbol sym s).hasTb = s.hasTb := rfl
@[simp] theorem countSymbol_cmd (sym : Symbol) (s : State) : (countSymbol sym s).cmd = s.cmd := rfl
@[simp] theorem countSymbol_out (sym : Symbol) (s : State) : (countSymbol sym s).out = s.out := rfl
@[simp] theorem countSymbol_rsp (sym : Symbol) (s : State) : (countSymbol sym s).rsp = s.rsp := rfl

/-! ### `tbDiscard` -/

@[simp] theorem tbDiscard_ct  (s : State) : (tbDiscard s).ct = s.ct := rfl
@[simp] theorem tbDiscard_path  (s : State) : (tbDiscard s).path = s.path := rfl
@[simp] theorem tbDiscard_acc  (s : State) : (tbDiscard s).acc = s.acc := rfl
@[simp] theorem tbDiscard_bitLen  (s : State) : (tbDiscard s).bitLen = s.bitLen := rfl
@[simp] theorem tbDiscard_lastLen  (s : State) : (tbDiscard s).lastLen = s.lastLen := rfl
@[simp] theorem tbDiscard_err  (s : State) : (tbDiscard s).err = s.err := rfl
@[simp] theorem tbDiscard_errInfo  (s : State) : (tbDiscard s).errInfo = s.errInfo := rfl
@[simp] theorem tbDiscard_ft  (s : State) : (tbDiscard s).ft = noCounts := rfl
@[simp] theorem tbDiscard_total  (s : State) : (tbDiscard s).total = 0#32 := rfl
@[simp] theorem tbDiscard_nsyms  (s : State) : (tbDiscard s).nsyms = 0#9 := rfl
@[simp] theorem tbDiscard_nodes  (s : State) : (tbDiscard s).nodes = [] := rfl
@[simp] theorem tbDiscard_pq  (s : State) : (tbDiscard s).pq = [] := rfl
@[simp] theorem tbDiscard_tree  (s : State) : (tbDiscard s).tree = false := rfl
@[simp] theorem tbDiscard_root  (s : State) : (tbDiscard s).root = 0 := rfl
@[simp] theorem tbDiscard_hasTb  (s : State) : (tbDiscard s).hasTb = s.hasTb := rfl
@[simp] theorem tbDiscard_cmd  (s : State) : (tbDiscard s).cmd = s.cmd := rfl
@[simp] theorem tbDiscard_out  (s : State) : (tbDiscard s).out = s.out := rfl
@[simp] theorem tbDiscard_rsp  (s : State) : (tbDiscard s).rsp = s.rsp := rfl

/-! ### `pkAppend` -/

@[simp] theorem pkAppend_ct (b : Bool) (s : State) : (pkAppend b s).ct = s.ct := by
  unfold pkAppend; split <;> rfl
@[simp] theorem pkAppend_path (b : Bool) (s : State) : (pkAppend b s).path = s.path := by
  unfold pkAppend; split <;> rfl
@[simp] theorem pkAppend_bitLen (b : Bool) (s : State) : (pkAppend b s).bitLen = s.bitLen + 1#32 := by
  unfold pkAppend; split <;> rfl
@[simp] theorem pkAppend_lastLen (b : Bool) (s : State) : (pkAppend b s).lastLen = s.lastLen := by
  unfold pkAppend; split <;> rfl
@[simp] theorem pkAppend_err (b : Bool) (s : State) : (pkAppend b s).err = s.err := by
  unfold pkAppend; split <;> rfl
@[simp] theorem pkAppend_errInfo (b : Bool) (s : State) : (pkAppend b s).errInfo = s.errInfo := by
  unfold pkAppend; split <;> rfl
@[simp] theorem pkAppend_ft (b : Bool) (s : State) : (pkAppend b s).ft = s.ft := by
  unfold pkAppend; split <;> rfl
@[simp] theorem pkAppend_total (b : Bool) (s : State) : (pkAppend b s).total = s.total := by
  unfold pkAppend; split <;> rfl
@[simp] theorem pkAppend_nsyms (b : Bool) (s : State) : (pkAppend b s).nsyms = s.nsyms := by
  unfold pkAppend; split <;> rfl
@[simp] theorem pkAppend_nodes (b : Bool) (s : State) : (pkAppend b s).nodes = s.nodes := by
  unfold pkAppend; split <;> rfl
@[simp] theorem pkAppend_pq (b : Bool) (s : State) : (pkAppend b s).pq = s.pq := by
  unfold pkAppend; split <;> rfl
@[simp] theorem pkAppend_tree (b : Bool) (s : State) : (pkAppend b s).tree = s.tree := by
  unfold pkAppend; split <;> rfl
@[simp] theorem pkAppend_root (b : Bool) (s : State) : (pkAppend b s).root = s.root := by
  unfold pkAppend; split <;> rfl
@[simp] theorem pkAppend_hasTb (b : Bool) (s : State) : (pkAppend b s).hasTb = s.hasTb := by
  unfold pkAppend; split <;> rfl
@[simp] theorem pkAppend_cmd (b : Bool) (s : State) : (pkAppend b s).cmd = s.cmd := by
  unfold pkAppend; split <;> rfl
@[simp] theorem pkAppend_rsp (b : Bool) (s : State) : (pkAppend b s).rsp = s.rsp := by
  unfold pkAppend; split <;> rfl

/-! ### `pkAppendAll` -/

@[simp] theorem pkAppendAll_ct (c : BitString) (s : State) : (pkAppendAll c s).ct = s.ct := by
  induction c generalizing s with
  | nil => rfl
  | cons b c ih => simp [pkAppendAll, ih]
@[simp] theorem pkAppendAll_path (c : BitString) (s : State) : (pkAppendAll c s).path = s.path := by
  induction c generalizing s with
  | nil => rfl
  | cons b c ih => simp [pkAppendAll, ih]
@[simp] theorem pkAppendAll_lastLen (c : BitString) (s : State) : (pkAppendAll c s).lastLen = s.lastLen := by
  induction c generalizing s with
  | nil => rfl
  | cons b c ih => simp [pkAppendAll, ih]
@[simp] theorem pkAppendAll_err (c : BitString) (s : State) : (pkAppendAll c s).err = s.err := by
  induction c generalizing s with
  | nil => rfl
  | cons b c ih => simp [pkAppendAll, ih]
@[simp] theorem pkAppendAll_errInfo (c : BitString) (s : State) : (pkAppendAll c s).errInfo = s.errInfo := by
  induction c generalizing s with
  | nil => rfl
  | cons b c ih => simp [pkAppendAll, ih]
@[simp] theorem pkAppendAll_ft (c : BitString) (s : State) : (pkAppendAll c s).ft = s.ft := by
  induction c generalizing s with
  | nil => rfl
  | cons b c ih => simp [pkAppendAll, ih]
@[simp] theorem pkAppendAll_total (c : BitString) (s : State) : (pkAppendAll c s).total = s.total := by
  induction c generalizing s with
  | nil => rfl
  | cons b c ih => simp [pkAppendAll, ih]
@[simp] theorem pkAppendAll_nsyms (c : BitString) (s : State) : (pkAppendAll c s).nsyms = s.nsyms := by
  induction c generalizing s with
  | nil => rfl
  | cons b c ih => simp [pkAppendAll, ih]
@[simp] theorem pkAppendAll_nodes (c : BitString) (s : State) : (pkAppendAll c s).nodes = s.nodes := by
  induction c generalizing s with
  | nil => rfl
  | cons b c ih => simp [pkAppendAll, ih]
@[simp] theorem pkAppendAll_pq (c : BitString) (s : State) : (pkAppendAll c s).pq = s.pq := by
  induction c generalizing s with
  | nil => rfl
  | cons b c ih => simp [pkAppendAll, ih]
@[simp] theorem pkAppendAll_tree (c : BitString) (s : State) : (pkAppendAll c s).tree = s.tree := by
  induction c generalizing s with
  | nil => rfl
  | cons b c ih => simp [pkAppendAll, ih]
@[simp] theorem pkAppendAll_root (c : BitString) (s : State) : (pkAppendAll c s).root = s.root := by
  induction c generalizing s with
  | nil => rfl
  | cons b c ih => simp [pkAppendAll, ih]
@[simp] theorem pkAppendAll_hasTb (c : BitString) (s : State) : (pkAppendAll c s).hasTb = s.hasTb := by
  induction c generalizing s with
  | nil => rfl
  | cons b c ih => simp [pkAppendAll, ih]
@[simp] theorem pkAppendAll_cmd (c : BitString) (s : State) : (pkAppendAll c s).cmd = s.cmd := by
  induction c generalizing s with
  | nil => rfl
  | cons b c ih => simp [pkAppendAll, ih]
@[simp] theorem pkAppendAll_rsp (c : BitString) (s : State) : (pkAppendAll c s).rsp = s.rsp := by
  induction c generalizing s with
  | nil => rfl
  | cons b c ih => simp [pkAppendAll, ih]

/-! ### `pkFlush` -/

@[simp] theorem pkFlush_ct  (s : State) : (pkFlush s).ct = s.ct := by
  unfold pkFlush; split <;> rfl
@[simp] theorem pkFlush_path  (s : State) : (pkFlush s).path = s.path := by
  unfold pkFlush; split <;> rfl
@[simp] theorem pkFlush_acc  (s : State) : (pkFlush s).acc = [] := by
  unfold pkFlush; split <;> rfl
@[simp] theorem pkFlush_bitLen  (s : State) : (pkFlush s).bitLen = 0#32 := by
  unfold pkFlush; split <;> rfl
@[simp] theorem pkFlush_lastLen  (s : State) : (pkFlush s).lastLen = s.bitLen := by
  unfold pkFlush; split <;> rfl
@[simp] theorem pkFlush_err  (s : State) : (pkFlush s).err = s.err := by
  unfold pkFlush; split <;> rfl
@[simp] theorem pkFlush_errInfo  (s : State) : (pkFlush s).errInfo = s.errInfo := by
  unfold pkFlush; split <;> rfl
@[simp] theorem pkFlush_ft  (s : State) : (pkFlush s).ft = s.ft := by
  unfold pkFlush; split <;> rfl
@[simp] theorem pkFlush_total  (s : State) : (pkFlush s).total = s.total := by
  unfold pkFlush; split <;> rfl
@[simp] theorem pkFlush_nsyms  (s : State) : (pkFlush s).nsyms = s.nsyms := by
  unfold pkFlush; split <;> rfl
@[simp] theorem pkFlush_nodes  (s : State) : (pkFlush s).nodes = s.nodes := by
  unfold pkFlush; split <;> rfl
@[simp] theorem pkFlush_pq  (s : State) : (pkFlush s).pq = s.pq := by
  unfold pkFlush; split <;> rfl
@[simp] theorem pkFlush_tree  (s : State) : (pkFlush s).tree = s.tree := by
  unfold pkFlush; split <;> rfl
@[simp] theorem pkFlush_root  (s : State) : (pkFlush s).root = s.root := by
  unfold pkFlush; split <;> rfl
@[simp] theorem pkFlush_hasTb  (s : State) : (pkFlush s).hasTb = s.hasTb := by
  unfold pkFlush; split <;> rfl
@[simp] theorem pkFlush_cmd  (s : State) : (pkFlush s).cmd = s.cmd := by
  unfold pkFlush; split <;> rfl
@[simp] theorem pkFlush_rsp  (s : State) : (pkFlush s).rsp = s.rsp := by
  unfold pkFlush; split <;> rfl

/-! ### `holdTree` -/

@[simp] theorem holdTree_ct (f : Forest) (s : State) : (holdTree f s).ct = s.ct := by
  unfold holdTree; split <;> rfl
@[simp] theorem holdTree_path (f : Forest) (s : State) : (holdTree f s).path = s.path := by
  unfold holdTree; split <;> rfl
@[simp] theorem holdTree_acc (f : Forest) (s : State) : (holdTree f s).acc = s.acc := by
  unfold holdTree; split <;> rfl
@[simp] theorem holdTree_bitLen (f : Forest) (s : State) : (holdTree f s).bitLen = s.bitLen := by
  unfold holdTree; split <;> rfl
@[simp] theorem holdTree_lastLen (f : Forest) (s : State) : (holdTree f s).lastLen = s.lastLen := by
  unfold holdTree; split <;> rfl
@[simp] theorem holdTree_err (f : Forest) (s : State) : (holdTree f s).err = s.err := by
  unfold holdTree; split <;> rfl
@[simp] theorem holdTree_errInfo (f : Forest) (s : State) : (holdTree f s).errInfo = s.errInfo := by
  unfold holdTree; split <;> rfl
@[simp] theorem holdTree_ft (f : Forest) (s : State) : (holdTree f s).ft = s.ft := by
  unfold holdTree; split <;> rfl
@[simp] theorem holdTree_total (f : Forest) (s : State) : (holdTree f s).total = s.total := by
  unfold holdTree; split <;> rfl
@[simp] theorem holdTree_nsyms (f : Forest) (s : State) : (holdTree f s).nsyms = s.nsyms := by
  unfold holdTree; split <;> rfl
@[simp] theorem holdTree_nodes (f : Forest) (s : State) : (holdTree f s).nodes = f.nodes := by
  unfold holdTree; split <;> rfl
@[simp] theorem holdTree_pq (f : Forest) (s : State) : (holdTree f s).pq = f.pq := by
  unfold holdTree; split <;> rfl
@[simp] theorem holdTree_hasTb (f : Forest) (s : State) : (holdTree f s).hasTb = s.hasTb := by
  unfold holdTree; split <;> rfl
@[simp] theorem holdTree_cmd (f : Forest) (s : State) : (holdTree f s).cmd = s.cmd := by
  unfold holdTree; split <;> rfl
@[simp] theorem holdTree_out (f : Forest) (s : State) : (holdTree f s).out = s.out := by
  unfold holdTree; split <;> rfl
@[simp] theorem holdTree_rsp (f : Forest) (s : State) : (holdTree f s).rsp = s.rsp := by
  unfold holdTree; split <;> rfl

/-! ### `placeWord` -/

@[simp] theorem placeWord_ct (w : Word16) (s : State) : (placeWord w s).ct = s.ct := rfl
@[simp] theorem placeWord_path (w : Word16) (s : State) : (placeWord w s).path = s.path := rfl
@[simp] theorem placeWord_acc (w : Word16) (s : State) : (placeWord w s).acc = s.acc := rfl
@[simp] theorem placeWord_bitLen (w : Word16) (s : State) : (placeWord w s).bitLen = s.bitLen := rfl
@[simp] theorem placeWord_lastLen (w : Word16) (s : State) : (placeWord w s).lastLen = s.lastLen := rfl
@[simp] theorem placeWord_err (w : Word16) (s : State) : (placeWord w s).err = s.err := rfl
@[simp] theorem placeWord_errInfo (w : Word16) (s : State) : (placeWord w s).errInfo = s.errInfo := rfl
@[simp] theorem placeWord_ft (w : Word16) (s : State) : (placeWord w s).ft = s.ft := rfl
@[simp] theorem placeWord_total (w : Word16) (s : State) : (placeWord w s).total = s.total := rfl
@[simp] theorem placeWord_nsyms (w : Word16) (s : State) : (placeWord w s).nsyms = s.nsyms := rfl
@[simp] theorem placeWord_nodes (w : Word16) (s : State) : (placeWord w s).nodes = s.nodes := rfl
@[simp] theorem placeWord_pq (w : Word16) (s : State) : (placeWord w s).pq = s.pq := rfl
@[simp] theorem placeWord_tree (w : Word16) (s : State) : (placeWord w s).tree = s.tree := rfl
@[simp] theorem placeWord_root (w : Word16) (s : State) : (placeWord w s).root = s.root := rfl
@[simp] theorem placeWord_hasTb (w : Word16) (s : State) : (placeWord w s).hasTb = s.hasTb := rfl
@[simp] theorem placeWord_cmd (w : Word16) (s : State) : (placeWord w s).cmd = .word w :: s.cmd := rfl
@[simp] theorem placeWord_out (w : Word16) (s : State) : (placeWord w s).out = s.out := rfl
@[simp] theorem placeWord_rsp (w : Word16) (s : State) : (placeWord w s).rsp = s.rsp := rfl

end Sys2Proof.Machine
end

