-- ==== Sys2Proof/Laws/Ops.lean ====
section
/-! SUPPORT. What each shared operation does: the tables, what stands around a command, taking an input, the status
registers, the packer. -/

namespace Sys2Proof.Machine

/-! ### The tables -/

@[simp] theorem codeAt_setCode (ct : Vector BitString 256) (x y : Symbol) (c : BitString) :
    codeAt (setCode ct x c) y = if y = x then c else codeAt ct y := by
  unfold codeAt setCode
  rw [Vector.getElem_set]
  by_cases h : y = x
  · simp [h]
  · have : x.toNat ≠ y.toNat := fun e => h (BitVec.eq_of_toNat_eq e.symm)
    simp [h, this]

@[simp] theorem codeAt_noCodes (x : Symbol) : codeAt noCodes x = [] := by simp [codeAt, noCodes]

@[simp] theorem countAt_setCount (ft : Vector Word32 256) (x y : Symbol) (n : Word32) :
    countAt (setCount ft x n) y = if y = x then n else countAt ft y := by
  unfold countAt setCount
  rw [Vector.getElem_set]
  by_cases h : y = x
  · simp [h]
  · have : x.toNat ≠ y.toNat := fun e => h (BitVec.eq_of_toNat_eq e.symm)
    simp [h, this]

@[simp] theorem countAt_noCounts (x : Symbol) : countAt noCounts x = 0#32 := by simp [countAt, noCounts]

/-- A code table is what it holds at each symbol. -/
theorem codes_ext {a b : Vector BitString 256} (h : ∀ x : Symbol, codeAt a x = codeAt b x) : a = b := by
  ext1 i hi
  simpa [codeAt, Nat.mod_eq_of_lt hi] using h (BitVec.ofNat 8 i)

/-- A frequency table is what it holds at each symbol. -/
theorem counts_ext {a b : Vector Word32 256} (h : ∀ x : Symbol, countAt a x = countAt b x) : a = b := by
  ext1 i hi
  simpa [countAt, Nat.mod_eq_of_lt hi] using h (BitVec.ofNat 8 i)

@[simp] theorem mem_allSymbols (x : Symbol) : x ∈ allSymbols :=
  List.mem_map.mpr ⟨x.toNat, List.mem_range.mpr x.isLt, by simp⟩

theorem allSymbols_length : allSymbols.length = 256 := by simp [allSymbols]

/-- The symbols stand in ascending order. -/
theorem allSymbols_sorted : allSymbols.Pairwise fun x y => x.toNat < y.toNat := by
  unfold allSymbols
  rw [List.pairwise_map]
  refine List.pairwise_lt_range.imp_of_mem ?_
  intro a b ha hb hab
  have := List.mem_range.mp ha
  have := List.mem_range.mp hb
  simp only [BitVec.toNat_ofNat]
  omega

theorem allSymbols_nodup : allSymbols.Nodup :=
  allSymbols_sorted.imp fun h e => by simp [e] at h

/-! ### What stands around a command -/

/-- A legal command runs its pseudocode when no fault is recorded. -/
theorem command_runs {i : Instr} {s : State} (body : Result) (he : s.err = 0#8) (hw : i.wf s.hasTb = true) :
    command i s body = body := by simp [command, he, hw]

/-- In the fault state the command is dropped (spec/60_exceptions.md R252). -/
theorem command_dropped {i : Instr} {s : State} (body : Result) (he : s.err ≠ 0#8) :
    command i s body = .next s := by simp [command, he]

/-- A command the build has no legal word for faults as that word does (spec/60_exceptions.md R241). -/
theorem command_illegal {i : Instr} {s : State} (body : Result) (he : s.err = 0#8) (hw : i.wf s.hasTb = false) :
    command i s body = .next (faulted .illegalCommand (encode i) s) := by
  simp [command, he, hw, illegalWord, raise]

/-- The three things a command can come to. -/
theorem command_cases {i : Instr} {s t : State} {body : Result} (h : command i s body = .next t) :
    (s.err ≠ 0#8 ∧ t = s) ∨
      (s.err = 0#8 ∧ i.wf s.hasTb = false ∧ t = faulted .illegalCommand (encode i) s) ∨
        (s.err = 0#8 ∧ i.wf s.hasTb = true ∧ body = .next t) := by
  by_cases he : s.err = 0#8
  · cases hw : i.wf s.hasTb
    · rw [command_illegal _ he hw] at h
      exact .inr (.inl ⟨he, rfl, by injection h with h; exact h.symm⟩)
    · rw [command_runs _ he hw] at h
      exact .inr (.inr ⟨he, rfl, h⟩)
  · rw [command_dropped _ he] at h
    exact .inl ⟨he, by injection h with h; exact h.symm⟩

theorem illegalWord_faults {w : Word16} {s : State} (he : s.err = 0#8) :
    illegalWord w s = .next (faulted .illegalCommand w s) := by simp [illegalWord, he, raise]

theorem illegalWord_dropped {w : Word16} {s : State} (he : s.err ≠ 0#8) : illegalWord w s = .next s := by
  simp [illegalWord, he]

/-- A fault code is one of 1 to 7 (spec/60_exceptions.md R240). -/
theorem errCode_range (c : FaultCode) : 1 ≤ (errCode c).toNat ∧ (errCode c).toNat ≤ 7 := by
  cases c <;> decide

/-! ### Taking an input -/

theorem step_idle {s : State} (h : s.cmd = []) : step s = .next s := by simp [step, takeInput, h]

theorem step_word {s : State} {w : Word16} {rest : List HostInput} (h : s.cmd = .word w :: rest) :
    step s = execWord w { s with cmd := rest } := by simp [step, takeInput, h, execInput]

theorem step_rst {s : State} {rest : List HostInput} (h : s.cmd = .rst :: rest) :
    step s = .next (engineReset { s with cmd := rest }) := by simp [step, takeInput, h, execInput]

theorem execWord_command {w : Word16} {s : State} {i : Instr} (h : decode s.hasTb w = .command i) :
    execWord w s = exec i s := by simp [execWord, h]

theorem execWord_illegal {w : Word16} {s : State} {why : IllegalWhy} (h : decode s.hasTb w = .illegal why) :
    execWord w s = illegalWord w s := by simp [execWord, h]

/-! ### The status registers -/

/-- The numbers 0 to 10 name a register, the others none (spec/10_state.md R37). -/
theorem statusReg_isSome_iff (r : BitVec 8) : (statusReg r).isSome = true ↔ r.toNat ≤ 10 := by
  revert r; decide

theorem statusReg_none {r : BitVec 8} (h : 10 < r.toNat) : statusReg r = none := by
  have := (statusReg_isSome_iff r).not.mpr (by omega)
  simpa using this

/-! ### The packer -/

/-- The end of a stream: one padded byte iff bits are pending (spec/44_bitpacker.md R222). -/
theorem pkFlush_out (s : State) (h : s.acc.length ≤ 8) : (pkFlush s).out = s.out ++ pack s.acc := by
  unfold pkFlush
  split
  · next h0 => rw [pack_one_byte _ h0 h]; rfl
  · next h0 =>
    have : s.acc = [] := List.eq_nil_of_length_eq_zero (by omega)
    simp [this]

/-- Appending a bit-string to a stream with at most seven bits pending: the whole bytes are sent, the rest is pending,
and the stream is that much longer (spec/44_bitpacker.md R220, R223). -/
theorem pkAppendAll_eq (c : BitString) (s : State) (h : s.acc.length ≤ 7) :
    pkAppendAll c s = { s with
      out := s.out ++ pack ((s.acc ++ c).take (8 * ((s.acc ++ c).length / 8)))
      acc := (s.acc ++ c).drop (8 * ((s.acc ++ c).length / 8))
      bitLen := s.bitLen + BitVec.ofNat 32 c.length } := by
  induction c generalizing s with
  | nil =>
    have h0 : s.acc.length / 8 = 0 := by omega
    simp [pkAppendAll, h0]
  | cons b c ih =>
    have hb : s.bitLen + 1#32 + BitVec.ofNat 32 c.length = s.bitLen + BitVec.ofNat 32 (b :: c).length := by
      rw [List.length_cons, Nat.add_comm, BitVec.ofNat_add, BitVec.add_assoc]
    have hs : s.acc ++ b :: c = (s.acc ++ [b]) ++ c := by simp
    rw [pkAppendAll]
    by_cases h8 : (s.acc ++ [b]).length = 8
    · have hk : pkAppend b s =
          emitOut [byteOf (s.acc ++ [b])] { s with acc := [], bitLen := s.bitLen + 1#32 } := by
        simp only [pkAppend, h8, if_true]
      rw [hk, ih _ (by simp), hs]
      have e1 : ((s.acc ++ [b]) ++ c).length / 8 = c.length / 8 + 1 := by
        rw [List.length_append, h8]; omega
      have e2 : 8 * (c.length / 8 + 1) = (s.acc ++ [b]).length + 8 * (c.length / 8) := by rw [h8]; ring
      rw [e1, e2, List.take_length_add_append, List.drop_length_add_append,
        pack_append _ _ (by rw [h8]), pack_one_byte (s.acc ++ [b]) (by omega) (by omega)]
      simp only [emitOut, List.nil_append, List.append_assoc, hb]
    · have hk : pkAppend b s = { s with acc := s.acc ++ [b], bitLen := s.bitLen + 1#32 } := by
        simp only [pkAppend, h8, if_false]
      have h7 : (s.acc ++ [b]).length ≤ 7 := by
        have : (s.acc ++ [b]).length = s.acc.length + 1 := by simp
        omega
      rw [hk, ih _ h7]
      simp only [hs, hb]

end Sys2Proof.Machine
end

