-- ==== Sys2Proof/Laws/Tree.lean ====
section
/-! SUPPORT. The min-priority queue and the two loops of `BUILD`: what one insertion and one merge do, and induction over
the loops. -/

namespace Sys2Proof.Machine

/-! ### Weights -/

theorem weightAt_of_getElem? {nodes : List Node} {n : Nat} {node : Node} (h : nodes[n]? = some node) :
    weightAt nodes n = nodeWeight node := by simp [weightAt, h]

/-- Allocating more nodes does not change the ones there are. -/
theorem weightAt_append {nodes : List Node} {n : Nat} (more : List Node) (h : n < nodes.length) :
    weightAt (nodes ++ more) n = weightAt nodes n := by simp [weightAt, List.getElem?_append_left h]

theorem weightAt_append_self (nodes : List Node) (node : Node) :
    weightAt (nodes ++ [node]) nodes.length = nodeWeight node := by simp [weightAt]

/-! ### The queue -/

@[simp] theorem pqInsert_nodes (n : Nat) (f : Forest) : (pqInsert n f).nodes = f.nodes := rfl

/-- Inserting adds the item and drops none. -/
theorem pqInsert_perm (n : Nat) (f : Forest) : (pqInsert n f).pq.Perm (n :: f.pq) := by
  have := List.perm_middle (a := n) (l₁ := f.pq.take (pqPosition n f)) (l₂ := f.pq.drop (pqPosition n f))
  rwa [List.take_append_drop] at this

@[simp] theorem pqInsert_length (n : Nat) (f : Forest) : (pqInsert n f).pq.length = f.pq.length + 1 := by
  simpa using (pqInsert_perm n f).length_eq

@[simp] theorem mem_pqInsert {n j : Nat} {f : Forest} : j ∈ (pqInsert n f).pq ↔ j = n ∨ j ∈ f.pq := by
  simpa using (pqInsert_perm n f).mem_iff (a := j)

/-- In a list sorted by a key, the items with a key at most `w` are those before their number. -/
theorem countP_splits_sorted (key : Nat → Nat) (w : Nat) (l : List Nat)
    (h : l.Pairwise fun a b => key a ≤ key b) :
    (∀ a ∈ l.take (l.countP fun j => decide (key j ≤ w)), key a ≤ w) ∧
      ∀ a ∈ l.drop (l.countP fun j => decide (key j ≤ w)), w < key a := by
  induction l with
  | nil => simp
  | cons a l ih =>
    rw [List.pairwise_cons] at h
    by_cases ha : key a ≤ w
    · simp only [List.countP_cons, ha, decide_true, if_true, List.take_succ_cons, List.drop_succ_cons, List.mem_cons]
      exact ⟨fun b hb => hb.elim (fun e => e ▸ ha) ((ih h.2).1 b), (ih h.2).2⟩
    · have h0 : l.countP (fun j => decide (key j ≤ w)) = 0 := by
        rw [List.countP_eq_zero]
        intro b hb
        have := h.1 b hb
        simp; omega
      simp only [List.countP_cons, ha, h0, decide_false]
      simp only [Bool.false_eq_true, if_false, Nat.add_zero, List.take_zero, List.drop_zero, List.mem_cons]
      exact ⟨by simp, fun b hb => by
        rcases hb with rfl | hb
        · omega
        · have := h.1 b hb; omega⟩

/-- Queue order is kept when the inserted node is newer than all that are queued. -/
theorem pqInsert_sorted {n : Nat} {f : Forest} (h : f.pq.Pairwise (QueuedBefore f.nodes))
    (hn : ∀ j ∈ f.pq, j < n) : (pqInsert n f).pq.Pairwise (QueuedBefore f.nodes) := by
  have hw : f.pq.Pairwise fun a b => (weightAt f.nodes a).toNat ≤ (weightAt f.nodes b).toNat :=
    h.imp fun hab => hab.elim Nat.le_of_lt fun hab => Nat.le_of_eq (congrArg BitVec.toNat hab.1)
  obtain ⟨h1, h2⟩ := countP_splits_sorted (fun j => (weightAt f.nodes j).toNat) (weightAt f.nodes n).toNat f.pq hw
  have hsplit := h
  rw [← List.take_append_drop (pqPosition n f) f.pq, List.pairwise_append] at hsplit
  rw [pqInsert, List.pairwise_append, List.pairwise_cons]
  refine ⟨hsplit.1, ⟨fun b hb => .inl (h2 b hb), hsplit.2.1⟩, fun a ha b hb => ?_⟩
  rcases List.mem_cons.mp hb with rfl | hb
  · have hle := h1 a ha
    rcases Nat.lt_or_ge (weightAt f.nodes a).toNat (weightAt f.nodes b).toNat with hlt | hge
    · exact .inl hlt
    · exact .inr ⟨BitVec.eq_of_toNat_eq (Nat.le_antisymm hle hge), hn a (List.mem_of_mem_take ha)⟩
  · exact hsplit.2.2 a ha b hb

theorem pqExtractMin_cons {f : Forest} {n : Nat} {rest : List Nat} (h : f.pq = n :: rest) :
    pqExtractMin f = some (n, { f with pq := rest }) := by simp [pqExtractMin, h]

theorem pqExtractMin_nil {f : Forest} (h : f.pq = []) : pqExtractMin f = none := by simp [pqExtractMin, h]

/-! ### Allocation -/

@[simp] theorem allocate_nodes (node : Node) (f : Forest) : (allocate node f).nodes = f.nodes ++ [node] := rfl

theorem allocate_perm (node : Node) (f : Forest) : (allocate node f).pq.Perm (f.nodes.length :: f.pq) :=
  pqInsert_perm _ _

@[simp] theorem allocate_length (node : Node) (f : Forest) : (allocate node f).pq.length = f.pq.length + 1 :=
  pqInsert_length _ _

@[simp] theorem mem_allocate {node : Node} {j : Nat} {f : Forest} :
    j ∈ (allocate node f).pq ↔ j = f.nodes.length ∨ j ∈ f.pq := mem_pqInsert

/-- Queue order is kept by an allocation. -/
theorem allocate_sorted {node : Node} {f : Forest} (h : f.pq.Pairwise (QueuedBefore f.nodes))
    (hb : ∀ j ∈ f.pq, j < f.nodes.length) :
    (allocate node f).pq.Pairwise (QueuedBefore (allocate node f).nodes) := by
  refine pqInsert_sorted (f := { f with nodes := f.nodes ++ [node] }) ?_ hb
  refine h.imp_of_mem fun ha hb' hab => ?_
  simpa only [QueuedBefore, weightAt_append _ (hb _ ha), weightAt_append _ (hb _ hb')] using hab

/-! ### The loops -/

/-- What holds of the empty unit and is kept by each leaf made holds after the leaves, with the symbols done so far. -/
theorem addLeaves_induct {ft : Vector Word32 256} (P : List Symbol → Forest → Prop)
    (hstep : ∀ done f sym, countAt ft sym ≠ 0#32 → P done f →
      P (done ++ [sym]) (allocate (.leaf sym (countAt ft sym)) f))
    (syms done : List Symbol) (f : Forest) (h : P done f) :
    P (done ++ syms.filter fun x => countAt ft x != 0#32) (addLeaves ft syms f) := by
  induction syms generalizing done f with
  | nil => simpa [addLeaves] using h
  | cons sym syms ih =>
    rw [addLeaves]
    by_cases hs : countAt ft sym = 0#32
    · simpa [hs] using ih done f h
    · have := ih _ _ (hstep done f sym hs h)
      simpa [hs] using this

/-- One merge, when two items are queued. -/
theorem mergeOnce_cons {f : Forest} {a b : Nat} {rest : List Nat} (h : f.pq = a :: b :: rest) :
    mergeOnce f = some (allocate (.internal (weightAt f.nodes a + weightAt f.nodes b) a b) { f with pq := rest }) := by
  simp [mergeOnce, pqExtractMin, h]

/-- What each merge keeps holds at the end of the loop. The loop always ends with a forest (no `QueueEmpty`), with enough
fuel it ends with at most one item queued, and it never empties the queue. -/
theorem mergeLoop_induct (P : Forest → Prop)
    (hstep : ∀ f a b rest, f.pq = a :: b :: rest → P f →
      P (allocate (.internal (weightAt f.nodes a + weightAt f.nodes b) a b) { f with pq := rest }))
    (fuel : Nat) (f : Forest) (h : P f) :
    ∃ f', mergeLoop fuel f = some f' ∧ P f' ∧ (f.pq.length ≤ fuel + 1 → f'.pq.length ≤ 1) ∧
      (f'.pq = [] ↔ f.pq = []) := by
  induction fuel generalizing f with
  | zero => exact ⟨f, rfl, h, by simp, Iff.rfl⟩
  | succ fuel ih =>
    match hq : f.pq with
    | [] => exact ⟨f, by simp [mergeLoop, pqSize, hq], h, by simp [hq], by simp [hq]⟩
    | [a] => exact ⟨f, by simp [mergeLoop, pqSize, hq], h, by simp [hq], by simp [hq]⟩
    | a :: b :: rest =>
      obtain ⟨f', h1, h2, h3, h4⟩ := ih _ (hstep f a b rest hq h)
      refine ⟨f', ?_, h2, fun hl => h3 ?_, ?_⟩
      · simpa [mergeLoop, pqSize, hq, mergeOnce_cons hq] using h1
      · simp at hl ⊢; omega
      · have hne : (allocate (.internal (weightAt f.nodes a + weightAt f.nodes b) a b)
            { f with pq := rest }).pq ≠ [] := by
          intro e; simpa using congrArg List.length e
        simp only [h4, hne, reduceCtorEq]

/-- `BUILD`'s two loops always end with a forest whose queue holds at most one item, and what the leaves and the merges
keep holds of it. -/
theorem buildForest_induct {ft : Vector Word32 256} (P : List Symbol → Forest → Prop)
    (hnil : P [] { nodes := [], pq := [] })
    (hleaf : ∀ done f sym, countAt ft sym ≠ 0#32 → P done f →
      P (done ++ [sym]) (allocate (.leaf sym (countAt ft sym)) f))
    (hmerge : ∀ f a b rest, f.pq = a :: b :: rest → P (observed ft) f →
      P (observed ft) (allocate (.internal (weightAt f.nodes a + weightAt f.nodes b) a b) { f with pq := rest })) :
    ∃ f, buildForest ft = some f ∧ P (observed ft) f ∧ f.pq.length ≤ 1 := by
  have hl : P (observed ft) (leafForest ft) := by
    simpa [observed, leafForest] using addLeaves_induct P hleaf allSymbols [] _ hnil
  obtain ⟨f, h1, h2, h3, -⟩ := mergeLoop_induct (P (observed ft)) hmerge (pqSize (leafForest ft)) _ hl
  exact ⟨f, h1, h2, h3 (by simp [pqSize])⟩

end Sys2Proof.Machine
end

