-- ==== Sys2Proof/Laws/Codes.lean ====
section
/-! SUPPORT. The codes below a node: the recursion of `codes`, its independence of later nodes, the lengths of the codes
and their freedom from prefixes, and what storing them leaves in the table. -/

namespace Sys2Proof.Machine

/-- Every child index is smaller than its parent's (spec/41_tree_builder.md R149). -/
def Acyclic (nodes : List Node) : Prop :=
  ∀ i weight left right, nodes[i]? = some (Node.internal weight left right) → left < i ∧ right < i

theorem acyclic_nil : Acyclic [] := by intro i w l r h; simp at h

theorem acyclic_append {nodes : List Node} {node : Node} (h : Acyclic nodes)
    (hn : ∀ w l r, node = .internal w l r → l < nodes.length ∧ r < nodes.length) : Acyclic (nodes ++ [node]) := by
  intro i w l r hi
  by_cases hlt : i < nodes.length
  · exact h i w l r (by simpa [List.getElem?_append_left hlt] using hi)
  · have hle := (List.getElem?_eq_some_iff.mp hi).1
    have he : i = nodes.length := by simp at hle; omega
    subst he
    exact hn w l r (by simpa using hi)

/-- More fuel than the index does not change the codes. -/
theorem codesTo_fuel {nodes : List Node} (h : Acyclic nodes) (fuel : Nat) (n : Nat) (p : BitString)
    (hf : n < fuel) : codesTo nodes fuel n p = codes nodes n p := by
  induction n using Nat.strong_induction_on generalizing fuel p with
  | _ n ih =>
    obtain ⟨fuel, rfl⟩ : ∃ k, fuel = k + 1 := ⟨fuel - 1, by omega⟩
    unfold codes
    rw [codesTo, codesTo]
    match hn : nodes[n]? with
    | none => rfl
    | some (.leaf sym w) => rfl
    | some (.internal w l r) =>
      obtain ⟨hl, hr⟩ := h n w l r hn
      simp only [ih l hl fuel _ (by omega), ih r hr fuel _ (by omega), ih l hl n _ hl, ih r hr n _ hr]

theorem codes_of_none {nodes : List Node} {n : Nat} (p : BitString) (h : nodes[n]? = none) :
    codes nodes n p = [] := by simp [codes, codesTo, h]

theorem codes_of_leaf {nodes : List Node} {n : Nat} {sym : Symbol} {w : Word32} (p : BitString)
    (h : nodes[n]? = some (.leaf sym w)) : codes nodes n p = [(sym, p)] := by simp [codes, codesTo, h]

theorem codes_of_internal {nodes : List Node} {n left right : Nat} {w : Word32} (p : BitString)
    (ha : Acyclic nodes) (h : nodes[n]? = some (.internal w left right)) :
    codes nodes n p = codes nodes left (p ++ [false]) ++ codes nodes right (p ++ [true]) := by
  obtain ⟨hl, hr⟩ := ha n w left right h
  conv_lhs => rw [codes, codesTo, h]
  simp only [codesTo_fuel ha n left _ hl, codesTo_fuel ha n right _ hr]

/-- Induction over the tree below a node. -/
theorem tree_induct {nodes : List Node} (ha : Acyclic nodes) (P : Nat → Prop)
    (hnone : ∀ n, nodes[n]? = none → P n) (hleaf : ∀ n sym w, nodes[n]? = some (.leaf sym w) → P n)
    (hint : ∀ n w l r, nodes[n]? = some (.internal w l r) → P l → P r → P n) (n : Nat) : P n := by
  induction n using Nat.strong_induction_on with
  | _ n ih =>
    match hn : nodes[n]? with
    | none => exact hnone n hn
    | some (.leaf sym w) => exact hleaf n sym w hn
    | some (.internal w l r) => exact hint n w l r hn (ih l (ha n w l r hn).1) (ih r (ha n w l r hn).2)

/-- The path to the node stands in front of every code below it. -/
theorem codes_path {nodes : List Node} (ha : Acyclic nodes) (n : Nat) (p : BitString) :
    codes nodes n p = (codes nodes n []).map fun e => (e.1, p ++ e.2) := by
  revert p
  refine tree_induct ha (fun n => ∀ p, codes nodes n p = (codes nodes n []).map fun e => (e.1, p ++ e.2)) ?_ ?_ ?_ n
  · intro n h p; simp [codes_of_none _ h]
  · intro n sym w h p; simp [codes_of_leaf _ h]
  · intro n w l r h hl hr p
    rw [codes_of_internal _ ha h, codes_of_internal _ ha h, hl, hr, hl ([] ++ [false]), hr ([] ++ [true])]
    simp [Function.comp_def]

/-- Nodes allocated later do not change the codes. -/
theorem codes_append {nodes : List Node} (ha : Acyclic nodes) (node : Node)
    (ha' : Acyclic (nodes ++ [node])) (n : Nat) (p : BitString) (hn : n < nodes.length) :
    codes (nodes ++ [node]) n p = codes nodes n p := by
  revert hn p
  refine tree_induct ha
    (fun n => ∀ p, n < nodes.length → codes (nodes ++ [node]) n p = codes nodes n p) ?_ ?_ ?_ n
  · intro n h p hn; exact absurd (List.getElem?_eq_none_iff.mp h) (by omega)
  · intro n sym w h p hn
    rw [codes_of_leaf _ h, codes_of_leaf (sym := sym) (w := w) _ (by rw [List.getElem?_append_left hn, h])]
  · intro n w l r h hl hr p hn
    obtain ⟨hln, hrn⟩ := ha n w l r h
    rw [codes_of_internal _ ha h,
      codes_of_internal (w := w) (left := l) (right := r) _ ha' (by rw [List.getElem?_append_left hn, h]),
      hl _ (by omega), hr _ (by omega)]

/-- Every allocated node has a leaf below it. -/
theorem codes_ne_nil {nodes : List Node} (ha : Acyclic nodes) (n : Nat) (p : BitString) (hn : n < nodes.length) :
    codes nodes n p ≠ [] := by
  revert hn p
  refine tree_induct ha (fun n => ∀ p, n < nodes.length → codes nodes n p ≠ []) ?_ ?_ ?_ n
  · intro n h p hn; exact absurd (List.getElem?_eq_none_iff.mp h) (by omega)
  · intro n sym w h p _; simp [codes_of_leaf _ h]
  · intro n w l r h hl _ p hn
    rw [codes_of_internal _ ha h]
    have := hl (p ++ [false]) (by have := (ha n w l r h).1; omega)
    simp [this]

/-- A leaf lies less deep than its tree has leaves (spec/42_code_table.md R184 clause 3). -/
theorem codes_depth {nodes : List Node} (ha : Acyclic nodes) (n : Nat) :
    ∀ e ∈ codes nodes n [], e.2.length < (codes nodes n []).length := by
  by_cases hn : n < nodes.length
  · revert hn
    refine tree_induct ha
      (fun n => n < nodes.length → ∀ e ∈ codes nodes n [], e.2.length < (codes nodes n []).length) ?_ ?_ ?_ n
    · intro n h hn; exact absurd (List.getElem?_eq_none_iff.mp h) (by omega)
    · intro n sym w h _ e he
      rw [codes_of_leaf _ h] at he ⊢
      simp at he; simp [he]
    · intro n w l r h hl hr hn e he
      obtain ⟨hln, hrn⟩ := ha n w l r h
      have hl := hl (by omega)
      have hr := hr (by omega)
      have hll := List.length_pos_of_ne_nil (codes_ne_nil ha l [] (by omega))
      have hrl := List.length_pos_of_ne_nil (codes_ne_nil ha r [] (by omega))
      rw [codes_of_internal _ ha h, codes_path ha l, codes_path ha r] at he ⊢
      simp only [List.mem_append, List.mem_map, List.length_append, List.length_map, List.nil_append] at he ⊢
      rcases he with ⟨e', he', rfl⟩ | ⟨e', he', rfl⟩
      · have := hl e' he'; simp; omega
      · have := hr e' he'; simp; omega
  · have h0 : nodes[n]? = none := by simp; omega
    simp [codes_of_none _ h0]

/-- No code below a node is a prefix of another (spec/42_code_table.md R184 clause 4). -/
theorem codes_prefixFree {nodes : List Node} (ha : Acyclic nodes) (n : Nat) :
    (codes nodes n []).Pairwise fun e f => ¬ (e.2 <+: f.2) ∧ ¬ (f.2 <+: e.2) := by
  refine tree_induct ha
    (fun n => (codes nodes n []).Pairwise fun e f => ¬ (e.2 <+: f.2) ∧ ¬ (f.2 <+: e.2)) ?_ ?_ ?_ n
  · intro n h; simp [codes_of_none _ h]
  · intro n sym w h; simp [codes_of_leaf _ h]
  · intro n w l r h hl hr
    rw [codes_of_internal _ ha h, codes_path ha l, codes_path ha r, List.pairwise_append]
    refine ⟨?_, ?_, ?_⟩
    · rw [List.pairwise_map]; exact hl.imp fun h => by simpa using h
    · rw [List.pairwise_map]; exact hr.imp fun h => by simpa using h
    · intro e he f hf
      obtain ⟨e', -, rfl⟩ := List.mem_map.mp he
      obtain ⟨f', -, rfl⟩ := List.mem_map.mp hf
      simp

/-- Kraft's equality below a node, scaled: the codes of length at most `D` fill the node's share
(spec/42_code_table.md R184 clause 5). -/
theorem codes_kraft {nodes : List Node} (ha : Acyclic nodes) (n : Nat) (hn : n < nodes.length) (D : Nat)
    (hD : ∀ e ∈ codes nodes n [], e.2.length ≤ D) :
    ((codes nodes n []).map fun e => 2 ^ (D - e.2.length)).sum = 2 ^ D := by
  revert hn D
  refine tree_induct ha (fun n => n < nodes.length → ∀ D, (∀ e ∈ codes nodes n [], e.2.length ≤ D) →
    ((codes nodes n []).map fun e => 2 ^ (D - e.2.length)).sum = 2 ^ D) ?_ ?_ ?_ n
  · intro n h hn; exact absurd (List.getElem?_eq_none_iff.mp h) (by omega)
  · intro n sym w h _ D _; simp [codes_of_leaf _ h]
  · intro n w l r h hl hr hn D hD
    obtain ⟨hln, hrn⟩ := ha n w l r h
    have key : ∀ (m : Nat) (b : Bool), m < nodes.length →
        (∀ D, (∀ e ∈ codes nodes m [], e.2.length ≤ D) →
          ((codes nodes m []).map fun e => 2 ^ (D - e.2.length)).sum = 2 ^ D) →
        (∀ e ∈ codes nodes m ([] ++ [b]), e.2.length ≤ D) →
        1 ≤ D ∧ ((codes nodes m ([] ++ [b])).map fun e => 2 ^ (D - e.2.length)).sum = 2 ^ (D - 1) := by
      intro m b hm ih hle
      rw [codes_path ha m] at hle ⊢
      have hpos : 1 ≤ D := by
        obtain ⟨e, he⟩ := List.exists_mem_of_ne_nil _ (codes_ne_nil ha m [] hm)
        have := hle _ (List.mem_map_of_mem he)
        simp at this; omega
      refine ⟨hpos, ?_⟩
      have := ih (D - 1) (fun e he => by
        have := hle _ (List.mem_map_of_mem he)
        simp at this; omega)
      rw [← this, List.map_map]
      congr 1
      refine List.map_congr_left fun e _ => ?_
      have hlen : D - ([] ++ [b] ++ e.2).length = D - 1 - e.2.length := by
        simp only [List.length_append, List.length_nil, List.length_singleton]; omega
      simp only [Function.comp, hlen]
    rw [codes_of_internal _ ha h] at hD ⊢
    obtain ⟨h1, e1⟩ := key l false (by omega) (hl (by omega)) fun e he => hD e (List.mem_append_left _ he)
    obtain ⟨-, e2⟩ := key r true (by omega) (hr (by omega)) fun e he => hD e (List.mem_append_right _ he)
    rw [List.map_append, List.sum_append, e1, e2, ← Nat.two_mul, ← Nat.pow_succ']
    congr 1; omega

/-! ### Storing -/

/-- A symbol that is not listed keeps its entry. -/
theorem storeCodes_of_not_mem {l : List (Symbol × BitString)} {ct : Vector BitString 256} {x : Symbol}
    (h : x ∉ l.map Prod.fst) : codeAt (storeCodes l ct) x = codeAt ct x := by
  induction l generalizing ct with
  | nil => rfl
  | cons e l ih =>
    rw [List.map_cons, List.mem_cons, not_or] at h
    obtain ⟨sym, c⟩ := e
    rw [storeCodes, ih h.2, codeAt_setCode, if_neg h.1]

/-- A symbol listed once gets the code listed with it. -/
theorem storeCodes_of_mem {l : List (Symbol × BitString)} {ct : Vector BitString 256} {x : Symbol} {c : BitString}
    (hn : (l.map Prod.fst).Nodup) (h : (x, c) ∈ l) : codeAt (storeCodes l ct) x = c := by
  induction l generalizing ct with
  | nil => cases h
  | cons e l ih =>
    obtain ⟨sym, c'⟩ := e
    rw [List.map_cons, List.nodup_cons] at hn
    rw [storeCodes]
    rcases List.mem_cons.mp h with h | h
    · obtain ⟨rfl, rfl⟩ := Prod.mk.inj h
      rw [storeCodes_of_not_mem hn.1, codeAt_setCode, if_pos rfl]
    · exact ih hn.2 h

end Sys2Proof.Machine
end

