-- ==== Sys2Proof/Laws/Forest.lean ====
section
/-! SUPPORT. What `BUILD`'s two loops produce: a forest in queue order whose trees hold each observed symbol once, with
the weights added exactly when they fit 32 bits (spec/41_tree_builder.md R148, R149). -/

namespace Sys2Proof.Machine

/-- The symbols of the leaves of the queued trees, in queue order. -/
def queuedSymbols (f : Forest) : List Symbol := f.pq.flatMap fun j => (codes f.nodes j []).map Prod.fst

/-- What holds of the nodes and the queue after the leaves of `syms`, and after every merge. -/
structure ForestOk (ft : Vector Word32 256) (syms : List Symbol) (f : Forest) : Prop where
  acyclic : Acyclic f.nodes
  bound : ∀ j ∈ f.pq, j < f.nodes.length
  nodup : f.pq.Nodup
  sorted : f.pq.Pairwise (QueuedBefore f.nodes)
  size : f.nodes.length + f.pq.length = 2 * syms.length
  symbols : (queuedSymbols f).Perm syms
  leaf : ∀ (i : Nat) sym w, f.nodes[i]? = some (Node.leaf sym w) → w = countAt ft sym
  internal : ∀ (i : Nat) w l r, f.nodes[i]? = some (Node.internal w l r) →
    l ≠ r ∧ w = weightAt f.nodes l + weightAt f.nodes r

theorem forestOk_nil (ft : Vector Word32 256) : ForestOk ft [] { nodes := [], pq := [] } where
  acyclic := acyclic_nil
  bound := by simp
  nodup := by simp
  sorted := by simp
  size := by simp
  symbols := by simp [queuedSymbols]
  leaf := by simp
  internal := by simp

/-- An allocation keeps what does not depend on the symbols. -/
theorem queuedSymbols_allocate {f : Forest} {node : Node} (ha : Acyclic f.nodes)
    (ha' : Acyclic (f.nodes ++ [node])) (hb : ∀ j ∈ f.pq, j < f.nodes.length) :
    (queuedSymbols (allocate node f)).Perm
      ((codes (f.nodes ++ [node]) f.nodes.length []).map Prod.fst ++ queuedSymbols f) := by
  refine ((allocate_perm node f).flatMap_right _).trans ?_
  rw [List.flatMap_cons]
  refine List.Perm.append_left _ (List.Perm.of_eq ?_)
  refine List.flatMap_congr fun j hj => ?_
  rw [allocate_nodes, codes_append ha node ha' j [] (hb j hj)]

theorem allocate_bound {f : Forest} (node : Node) (hb : ∀ j ∈ f.pq, j < f.nodes.length) :
    ∀ j ∈ (allocate node f).pq, j < (allocate node f).nodes.length := by
  intro j hj
  rw [mem_allocate] at hj
  rw [allocate_nodes, List.length_append, List.length_singleton]
  rcases hj with rfl | hj
  · omega
  · have := hb j hj; omega

theorem allocate_nodup {f : Forest} (node : Node) (hb : ∀ j ∈ f.pq, j < f.nodes.length) (hn : f.pq.Nodup) :
    (allocate node f).pq.Nodup := by
  rw [(allocate_perm node f).nodup_iff, List.nodup_cons]
  exact ⟨fun h => absurd (hb _ h) (by omega), hn⟩

theorem getElem?_allocate_cases {nodes : List Node} {node node' : Node} {i : Nat}
    (h : (nodes ++ [node])[i]? = some node') :
    (i < nodes.length ∧ nodes[i]? = some node') ∨ (i = nodes.length ∧ node' = node) := by
  by_cases hlt : i < nodes.length
  · exact .inl ⟨hlt, by rwa [List.getElem?_append_left hlt] at h⟩
  · have hle := (List.getElem?_eq_some_iff.mp h).1
    rw [List.length_append, List.length_singleton] at hle
    have he : i = nodes.length := by omega
    subst he
    exact .inr ⟨rfl, by simpa using h.symm⟩

/-- One leaf. -/
theorem forestOk_leaf {ft : Vector Word32 256} {syms : List Symbol} {f : Forest} (sym : Symbol)
    (h : ForestOk ft syms f) : ForestOk ft (syms ++ [sym]) (allocate (.leaf sym (countAt ft sym)) f) := by
  have ha' : Acyclic (f.nodes ++ [.leaf sym (countAt ft sym)]) := acyclic_append h.acyclic (by simp)
  refine ⟨ha', allocate_bound _ h.bound, allocate_nodup _ h.bound h.nodup, allocate_sorted h.sorted h.bound, ?_, ?_,
    ?_, ?_⟩
  · have := h.size; simp; omega
  · refine (queuedSymbols_allocate h.acyclic ha' h.bound).trans ?_
    rw [codes_of_leaf (sym := sym) (w := countAt ft sym) _ (by simp)]
    exact (h.symbols.append_left _).trans List.perm_append_comm
  · intro i sym' w hi
    rcases getElem?_allocate_cases hi with ⟨-, hi⟩ | ⟨-, hi⟩
    · exact h.leaf i sym' w hi
    · injection hi with h1 h2; rw [h1, h2]
  · intro i w l r hi
    rcases getElem?_allocate_cases hi with ⟨hlt, hi⟩ | ⟨-, hi⟩
    · obtain ⟨hl, hr⟩ := h.acyclic i w l r hi
      rw [allocate_nodes, weightAt_append _ (by omega), weightAt_append _ (by omega)]
      exact h.internal i w l r hi
    · cases hi

/-- One merge. -/
theorem forestOk_merge {ft : Vector Word32 256} {syms : List Symbol} {f : Forest} {a b : Nat} {rest : List Nat}
    (hq : f.pq = a :: b :: rest) (h : ForestOk ft syms f) :
    ForestOk ft syms (allocate (.internal (weightAt f.nodes a + weightAt f.nodes b) a b) { f with pq := rest }) := by
  have hb := h.bound
  have hn := h.nodup
  have hs := h.sorted
  rw [hq] at hb hn hs
  have haa : a < f.nodes.length := hb a (by simp)
  have hbb : b < f.nodes.length := hb b (by simp)
  have hb' : ∀ j ∈ rest, j < f.nodes.length := fun j hj => hb j (by simp [hj])
  have ha' : Acyclic (f.nodes ++ [.internal (weightAt f.nodes a + weightAt f.nodes b) a b]) :=
    acyclic_append h.acyclic (by simp; omega)
  simp only [List.nodup_cons] at hn
  simp only [List.pairwise_cons] at hs
  refine ⟨ha', allocate_bound _ hb', allocate_nodup _ hb' hn.2.2, allocate_sorted hs.2.2 hb', ?_, ?_, ?_, ?_⟩
  · have := h.size; simp [hq] at this ⊢; omega
  · refine (queuedSymbols_allocate (f := { f with pq := rest }) h.acyclic ha' hb').trans ?_
    refine List.Perm.trans ?_ h.symbols
    rw [codes_of_internal (w := weightAt f.nodes a + weightAt f.nodes b) (left := a) (right := b) _ ha' (by simp),
      codes_append h.acyclic _ ha' a _ haa, codes_append h.acyclic _ ha' b _ hbb, codes_path h.acyclic a,
      codes_path h.acyclic b]
    refine List.Perm.of_eq ?_
    simp [queuedSymbols, hq, Function.comp_def]
  · intro i sym w hi
    rcases getElem?_allocate_cases hi with ⟨-, hi⟩ | ⟨-, hi⟩
    · exact h.leaf i sym w hi
    · cases hi
  · intro i w l r hi
    rw [allocate_nodes]
    rcases getElem?_allocate_cases hi with ⟨hlt, hi⟩ | ⟨-, hi⟩
    · obtain ⟨hl, hr⟩ := h.acyclic i w l r hi
      have hlt : i < f.nodes.length := hlt
      rw [weightAt_append _ (by omega), weightAt_append _ (by omega)]
      exact h.internal i w l r hi
    · injection hi with h1 h2 h3
      subst h1 h2 h3
      rw [weightAt_append _ haa, weightAt_append _ hbb]
      exact ⟨fun e => hn.1 (by simp [e]), rfl⟩

/-- What `BUILD`'s loops produce from any frequency table (spec/41_tree_builder.md R149). -/
theorem buildForest_spec (ft : Vector Word32 256) :
    ∃ f, buildForest ft = some f ∧ ForestOk ft (observed ft) f ∧ f.pq.length ≤ 1 :=
  buildForest_induct (ForestOk ft) (forestOk_nil ft) (fun _ _ sym _ h => forestOk_leaf sym h)
    fun _ _ _ _ hq h => forestOk_merge hq h

/-! ### Exact weights -/

/-- The queued weights, added as integers. -/
def queuedWeight (f : Forest) : Nat := (f.pq.map fun j => (weightAt f.nodes j).toNat).sum

/-- Every internal weight is the exact sum of its children's (spec/20_memory.md R77). -/
def WeightsExact (nodes : List Node) : Prop :=
  ∀ (i : Nat) w l r, nodes[i]? = some (Node.internal w l r) →
    w.toNat = (weightAt nodes l).toNat + (weightAt nodes r).toNat

theorem queuedWeight_allocate {f : Forest} (node : Node) (hb : ∀ j ∈ f.pq, j < f.nodes.length) :
    queuedWeight (allocate node f) = (nodeWeight node).toNat + queuedWeight f := by
  unfold queuedWeight
  rw [((allocate_perm node f).map _).sum_eq, List.map_cons, List.sum_cons, allocate_nodes, weightAt_append_self]
  congr 2
  refine List.map_congr_left fun j hj => ?_
  rw [weightAt_append _ (hb j hj)]

/-- When the counts fit 32 bits together, no weight wraps, and the queued weights always add up to the counts of the
symbols done (spec/20_memory.md R77). -/
theorem buildForest_exact (ft : Vector Word32 256)
    (hsum : ((observed ft).map fun x => (countAt ft x).toNat).sum < 2 ^ 32) :
    ∃ f, buildForest ft = some f ∧ WeightsExact f.nodes ∧
      queuedWeight f = ((observed ft).map fun x => (countAt ft x).toNat).sum := by
  obtain ⟨f, h1, ⟨-, h2, h3⟩, -⟩ := buildForest_induct (ft := ft)
    (fun syms f => ForestOk ft syms f ∧ WeightsExact f.nodes ∧
      queuedWeight f = (syms.map fun x => (countAt ft x).toNat).sum)
    ⟨forestOk_nil ft, by intro i; simp, rfl⟩
    (fun syms f sym _ ⟨hf, hw, hs⟩ => by
      refine ⟨forestOk_leaf sym hf, ?_, ?_⟩
      · intro i w l r hi
        rw [allocate_nodes] at hi ⊢
        rcases getElem?_allocate_cases hi with ⟨hlt, hi⟩ | ⟨-, hi⟩
        · obtain ⟨hl, hr⟩ := hf.acyclic i w l r hi
          rw [weightAt_append _ (by omega), weightAt_append _ (by omega)]
          exact hw i w l r hi
        · cases hi
      · rw [queuedWeight_allocate _ hf.bound, hs]
        simp [nodeWeight, Nat.add_comm])
    (fun f a b rest hq ⟨hf, hw, hs⟩ => by
      have hb := hf.bound
      rw [hq] at hb
      have hb' : ∀ j ∈ rest, j < f.nodes.length := fun j hj => hb j (by simp [hj])
      have hab : (weightAt f.nodes a).toNat + (weightAt f.nodes b).toNat +
          (rest.map fun j => (weightAt f.nodes j).toNat).sum = queuedWeight f := by
        simp [queuedWeight, hq, Nat.add_assoc]
      have hex : (weightAt f.nodes a + weightAt f.nodes b).toNat =
          (weightAt f.nodes a).toNat + (weightAt f.nodes b).toNat := by
        rw [BitVec.toNat_add, Nat.mod_eq_of_lt (by omega)]
      refine ⟨forestOk_merge hq hf, ?_, ?_⟩
      · intro i w l r hi
        rw [allocate_nodes] at hi ⊢
        rcases getElem?_allocate_cases hi with ⟨hlt, hi⟩ | ⟨-, hi⟩
        · obtain ⟨hl, hr⟩ := hf.acyclic i w l r hi
          have hlt : i < f.nodes.length := hlt
          rw [weightAt_append _ (by omega), weightAt_append _ (by omega)]
          exact hw i w l r hi
        · injection hi with e1 e2 e3
          subst e1 e2 e3
          rw [weightAt_append _ (hb _ (by simp)), weightAt_append _ (hb _ (by simp))]
          exact hex
      · rw [queuedWeight_allocate _ hb', ← hs, ← hab, nodeWeight, hex]
        rfl)
  exact ⟨f, h1, h2, h3⟩

end Sys2Proof.Machine
end

