-- ==== Sys2Proof/Laws/Exec.lean ====
section
/-! SUPPORT. Everything a command can do, said once: `Does i s t` lists the next states of a command, `exec_does` says that
the list is complete. A proof about all commands takes `Does` apart and unfolds no meaning. -/

namespace Sys2Proof.Machine

/-- `2^32 - 1` as a number. -/
theorem maxCount_toNat : Config.maxCount.toNat = 2 ^ 32 - 1 := rfl

/-- A 32-bit register is at its greatest value. -/
theorem eq_maxCount_iff {v : Word32} : v = Config.maxCount ↔ v.toNat = 2 ^ 32 - 1 :=
  ⟨fun h => by rw [h]; rfl, fun h => BitVec.eq_of_toNat_eq h⟩

/-- The command does its own effect, from a state with no fault recorded, on a build that has it. -/
inductive Acts (s : State) : Instr → State → Prop where
  | nop : Acts s .nop s
  | fclr : Acts s .fclr (tbDiscard s)
  | tab (sym) (h : s.total.toNat ≠ 2 ^ 32 - 1) : Acts s (.tab sym) (countSymbol sym s)
  | fget (sym) : Acts s (.fget sym) (emitRsp (be32 (countAt s.ft sym)) s)
  | build (f) (h : buildForest s.ft = some f) : Acts s .build (holdTree f s)
  | assign : Acts s .assign (tbDiscard { s with ct := storeCodes (assignedCodes s) noCodes, path := [] })
  | ctclr : Acts s .ctclr { s with ct := noCodes }
  | pclr : Acts s .pclr { s with path := [] }
  | pbit (b) (h : s.path.length ≠ 255) : Acts s (.pbit b) { s with path := s.path ++ [b] }
  | ctset (sym) (h : s.path ≠ []) : Acts s (.ctset sym) { s with ct := setCode s.ct sym s.path, path := [] }
  | ctget (sym) : Acts s (.ctget sym)
      (emitRsp (BitVec.ofNat 8 (codeAt s.ct sym).length :: pack (codeAt s.ct sym)) s)
  | enc (sym) (h : codeAt s.ct sym ≠ []) (hl : s.bitLen.toNat + (codeAt s.ct sym).length ≤ 2 ^ 32 - 1) :
      Acts s (.enc sym) (pkAppendAll (codeAt s.ct sym) s)
  | pkbit (b) (h : s.bitLen.toNat ≠ 2 ^ 32 - 1) : Acts s (.pkbit b) (pkAppend b s)
  | flush : Acts s .flush (pkFlush s)

/-- The command faults, from a state with no fault recorded: the causes of spec/60_exceptions.md R240. -/
inductive Faults (s : State) : Instr → FaultCode → Prop where
  | illegalCommand (i) (h : i.wf s.hasTb = false) : Faults s i .illegalCommand
  | lookupMiss (sym) (h : codeAt s.ct sym = []) : Faults s (.enc sym) .lookupMiss
  | emptyCode (sym) (h : s.path = []) : Faults s (.ctset sym) .emptyCode
  | codeTooLong (b) (h : s.path.length = 255) : Faults s (.pbit b) .codeTooLong
  | countOverflow (sym) (h : s.total.toNat = 2 ^ 32 - 1) : Faults s (.tab sym) .countOverflow
  | encOverflow (sym) (h : codeAt s.ct sym ≠ []) (hl : s.bitLen.toNat + (codeAt s.ct sym).length > 2 ^ 32 - 1) :
      Faults s (.enc sym) .lengthOverflow
  | pkbitOverflow (b) (h : s.bitLen.toNat = 2 ^ 32 - 1) : Faults s (.pkbit b) .lengthOverflow

/-- The next states of a command. -/
inductive Does (s : State) : Instr → State → Prop where
  /-- `RESET`, in the fault state too. -/
  | reset : Does s .reset (engineReset s)
  /-- `RDSR` of a register that exists, in the fault state too. -/
  | rdsr (r reg) (h : statusReg r = some reg) : Does s (.rdsr r) (emitRsp (be32 (statusValue s reg)) s)
  /-- Dropped in the fault state. -/
  | dropped (i) (he : s.err ≠ 0#8) (hi : i ≠ .reset) (hr : ∀ r, i = .rdsr r → statusReg r = none) : Does s i s
  | faults (i c) (he : s.err = 0#8) (hf : Faults s i c) : Does s i (faulted c (encode i) s)
  | acts (i t) (he : s.err = 0#8) (hw : i.wf s.hasTb = true) (ha : Acts s i t) : Does s i t

/-- A command that is neither `RESET` nor `RDSR`: the fault state and the build first, then its pseudocode. -/
theorem does_command {i : Instr} {s t : State} {body : Result} (hi : i ≠ .reset) (hr : ∀ r, i ≠ .rdsr r)
    (h : command i s body = .next t)
    (hb : s.err = 0#8 → i.wf s.hasTb = true → body = .next t →
      Acts s i t ∨ ∃ c, Faults s i c ∧ t = faulted c (encode i) s) : Does s i t := by
  rcases command_cases h with ⟨he, rfl⟩ | ⟨he, hw, rfl⟩ | ⟨he, hw, ht⟩
  · exact .dropped i he hi fun r e => absurd e (hr r)
  · exact .faults i _ he (.illegalCommand i hw)
  · rcases hb he hw ht with ha | ⟨c, hf, rfl⟩
    · exact .acts i t he hw ha
    · exact .faults i c he hf

/-- An `if` between a fault and an effect comes to one of the two. -/
theorem does_choice {c : Prop} [Decidable c] {i : Instr} {s t u : State} {f : FaultCode}
    (h : (if c then raise f (encode i) s else .next u) = .next t) (hf : c → Faults s i f) (ha : ¬ c → Acts s i u) :
    Acts s i t ∨ ∃ c, Faults s i c ∧ t = faulted c (encode i) s := by
  by_cases hc : c
  · rw [if_pos hc] at h
    injection h with h
    exact .inr ⟨f, hf hc, h.symm⟩
  · rw [if_neg hc] at h
    injection h with h
    exact .inl (h ▸ ha hc)

/-- What a command answers is one of the next states listed. -/
theorem exec_does {i : Instr} {s t : State} (h : exec i s = .next t) : Does s i t := by
  cases i
  case reset => injection h with h; exact h ▸ .reset
  case rdsr r =>
    simp only [exec, execRdsr] at h
    cases hr : statusReg r with
    | some reg => rw [hr] at h; injection h with h; exact h ▸ .rdsr r reg hr
    | none =>
      rw [hr] at h
      by_cases he : s.err = 0#8
      · rw [illegalWord_faults he] at h
        injection h with h
        have hn := (statusReg_isSome_iff r).not.mp (by simp [hr])
        exact h ▸ .faults _ _ he (.illegalCommand _ (by simp only [Instr.wf, Config.lastStatusReg, hn, decide_false]))
      · rw [illegalWord_dropped he] at h
        injection h with h
        exact h ▸ .dropped _ he (by simp) (by rintro _ ⟨⟩; exact hr)
  case nop => exact does_command (by simp) (by simp) h fun _ _ h => by injection h with h; exact .inl (h ▸ .nop)
  case fclr => exact does_command (by simp) (by simp) h fun _ _ h => by injection h with h; exact .inl (h ▸ .fclr)
  case fget sym =>
    exact does_command (by simp) (by simp) h fun _ _ h => by injection h with h; exact .inl (h ▸ .fget sym)
  case assign => exact does_command (by simp) (by simp) h fun _ _ h => by injection h with h; exact .inl (h ▸ .assign)
  case ctclr => exact does_command (by simp) (by simp) h fun _ _ h => by injection h with h; exact .inl (h ▸ .ctclr)
  case pclr => exact does_command (by simp) (by simp) h fun _ _ h => by injection h with h; exact .inl (h ▸ .pclr)
  case ctget sym =>
    exact does_command (by simp) (by simp) h fun _ _ h => by injection h with h; exact .inl (h ▸ .ctget sym)
  case flush => exact does_command (by simp) (by simp) h fun _ _ h => by injection h with h; exact .inl (h ▸ .flush)
  case build =>
    refine does_command (by simp) (by simp) h fun _ _ h => ?_
    obtain ⟨f, hf, -⟩ := buildForest_spec s.ft
    rw [hf] at h
    injection h with h
    exact .inl (h ▸ .build f hf)
  case tab sym =>
    exact does_command (by simp) (by simp) h fun _ _ h => does_choice h
      (fun hc => .countOverflow sym (eq_maxCount_iff.mp hc)) fun hc => .tab sym (eq_maxCount_iff.not.mp hc)
  case pbit b =>
    exact does_command (by simp) (by simp) h fun _ _ h => does_choice h (.codeTooLong b) (.pbit b)
  case ctset sym =>
    exact does_command (by simp) (by simp) h fun _ _ h => does_choice h
      (fun hc => .emptyCode sym (List.eq_nil_of_length_eq_zero hc)) fun hc => .ctset sym fun e => hc (by simp [e])
  case pkbit b =>
    exact does_command (by simp) (by simp) h fun _ _ h => does_choice h
      (fun hc => .pkbitOverflow b (eq_maxCount_iff.mp hc)) fun hc => .pkbit b (eq_maxCount_iff.not.mp hc)
  case enc sym =>
    refine does_command (by simp) (by simp) h fun _ _ h => ?_
    by_cases hc : (codeAt s.ct sym).length = 0
    · rw [if_pos hc] at h
      injection h with h
      exact .inr ⟨_, .lookupMiss sym (List.eq_nil_of_length_eq_zero hc), h.symm⟩
    · rw [if_neg hc] at h
      have hne : codeAt s.ct sym ≠ [] := fun e => hc (by simp [e])
      exact does_choice h (.encOverflow sym hne) fun hl => .enc sym hne (Nat.le_of_not_lt hl)

end Sys2Proof.Machine
end

