-- ==== Sys2Proof/Laws/PerInstr.lean ====
section
/-! SUPPORT. Statements made for every command, one lemma per constructor of `Instr`: the round trip of the encoding. -/

namespace Sys2Proof.Laws.RoundTrip

/-- On a build that has the command, its word decodes to it (spec/30_encoding.md R96, R97). -/
def Statement (i : Instr) : Prop := ∀ hasTb : Bool, i.wf hasTb = true → decode hasTb (encode i) = .command i

theorem nop : Statement .nop := by
  intro hasTb _; rw [decode_encode_fields]; rfl

theorem reset : Statement .reset := by
  intro hasTb _; rw [decode_encode_fields]; rfl

theorem rdsr (r : BitVec 8) : Statement (.rdsr r) := by
  intro hasTb h
  rw [decode_encode_fields]
  exact formatR_eq_command.mpr ⟨of_decide_eq_true h, rfl⟩

theorem fclr : Statement .fclr := by
  intro hasTb h; rw [decode_encode_fields]; cases h; rfl

theorem tab (sym : Symbol) : Statement (.tab sym) := by
  intro hasTb h; rw [decode_encode_fields]; cases h; rfl

theorem fget (sym : Symbol) : Statement (.fget sym) := by
  intro hasTb h; rw [decode_encode_fields]; cases h; rfl

theorem build : Statement .build := by
  intro hasTb h; rw [decode_encode_fields]; cases h; rfl

theorem assign : Statement .assign := by
  intro hasTb h; rw [decode_encode_fields]; cases h; rfl

theorem ctclr : Statement .ctclr := by
  intro hasTb _; rw [decode_encode_fields]; rfl

theorem pclr : Statement .pclr := by
  intro hasTb _; rw [decode_encode_fields]; rfl

theorem pbit (b : Bool) : Statement (.pbit b) := by
  intro hasTb _; rw [decode_encode_fields]; cases b <;> rfl

theorem ctset (sym : Symbol) : Statement (.ctset sym) := by
  intro hasTb _; rw [decode_encode_fields]; rfl

theorem ctget (sym : Symbol) : Statement (.ctget sym) := by
  intro hasTb _; rw [decode_encode_fields]; rfl

theorem enc (sym : Symbol) : Statement (.enc sym) := by
  intro hasTb _; rw [decode_encode_fields]; rfl

theorem pkbit (b : Bool) : Statement (.pkbit b) := by
  intro hasTb _; rw [decode_encode_fields]; cases b <;> rfl

theorem flush : Statement .flush := by
  intro hasTb _; rw [decode_encode_fields]; rfl

end Sys2Proof.Laws.RoundTrip
end

