-- ==== Sys2Proof/Tests/Slice0.lean ====
section
/-! SUPPORT. Tests of one step each, their expected results from spec/95_test_vectors.md, the words written out from
spec/30_encoding.md; the smoke test of WellFormed; and, for every obligation with hypotheses, a state and operands that meet
them (`test_meets_…`). -/

namespace Sys2Proof.Tests

open Sys2Proof.Machine

/-! ### States -/

/-- A frequency table with the counts listed. -/
def counts (l : List (Symbol × Word32)) : Vector Word32 256 := l.foldl (fun ft e => setCount ft e.1 e.2) noCounts

/-- A code table with the codes listed. -/
def table (l : List (Symbol × BitString)) : Vector BitString 256 := l.foldl (fun ct e => setCode ct e.1 e.2) noCodes

/-- The text "abacabad" tabulated (E8). -/
def tabulated : State :=
  { State.reset with
    ft := counts [(0x61#8, 4#32), (0x62#8, 2#32), (0x63#8, 1#32), (0x64#8, 1#32)], total := 8#32, nsyms := 4#9 }

/-- The text "aaaa" tabulated (E6). -/
def oneSymbol : State := { State.reset with ft := counts [(0x61#8, 4#32)], total := 4#32, nsyms := 1#9 }

/-- The tree of "aab" held (V-TB2). -/
def treeHeld : State :=
  { State.reset with
    ft := counts [(0x61#8, 2#32), (0x62#8, 1#32)], total := 3#32, nsyms := 2#9
    nodes := [.leaf 0x61#8 2#32, .leaf 0x62#8 1#32, .internal 3#32 1 0], pq := [2], tree := true, root := 2 }

/-- The tree of "aaaa" held (E6). -/
def leafHeld : State := { oneSymbol with nodes := [.leaf 0x61#8 4#32], pq := [0], tree := true, root := 0 }

/-- The code table of E8. -/
def coded : State :=
  { State.reset with ct := table [(0x61#8, [false]), (0x62#8, [true, false]), (0x63#8, [true, true, false]),
      (0x64#8, [true, true, true])] }

/-- The fault state of V-FLT 1. -/
def missed : State := { State.reset with err := 2#8, errInfo := 0x3061#16 }

/-- `TOTAL` one below its greatest value, and at it (V-TB 15, V-FLT 6). -/
def nearlyFull : State :=
  { State.reset with ft := counts [(0x61#8, 0xFFFFFFFE#32)], total := 0xFFFFFFFE#32, nsyms := 1#9 }
def full : State := { State.reset with ft := counts [(0x61#8, 0xFFFFFFFF#32)], total := 0xFFFFFFFF#32, nsyms := 1#9 }

/-- `BITLEN` at its greatest value and one below (V-FLT 7, V-PK 4). -/
def longest : State := { coded with bitLen := 0xFFFFFFFF#32, acc := List.replicate 7 true }
def nearlyLongest : State := { coded with bitLen := 0xFFFFFFFE#32, acc := List.replicate 6 true }

/-- `PATH` at its greatest length (V-FLT 4). -/
def longPath : State := { State.reset with path := List.replicate 255 true }

/-- A build without the TB unit. -/
def noUnit : State := State.resetOf false

/-- One step with the word delivered. -/
def after (w : Word16) (s : State) : State :=
  match step (s.withFetchWord 16 w.toNat) with
  | .next t => t
  | .fault _ => s
  | .refused _ => s

/-- The outcome is a next state with the fault code. -/
def errIs (r : Result) (code : BitVec 8) : Bool :=
  match r with
  | .next t => t.err == code
  | .fault _ => false
  | .refused _ => false

theorem errIs_iff {r : Result} {code : BitVec 8} : errIs r code = true ↔ ∃ t, r = .next t ∧ t.err = code := by
  cases r <;> simp [errIs]

/-! ### Well-formed commands and decoding -/

/-- spec/30_encoding.md R98 clause 4: `RDSR 10` is legal, `RDSR 11` is not, on either build. -/
theorem test_wf_register :
    (Instr.rdsr 10#8).wf true = true ∧ (Instr.rdsr 11#8).wf true = false ∧ (Instr.rdsr 11#8).wf false = false := by
  decide

/-- spec/30_encoding.md R98 clause 5: a TB command is not legal without the TB unit. -/
theorem test_wf_unit :
    (Instr.fclr).wf false = false ∧ (Instr.tab 0x61#8).wf false = false ∧ (Instr.fget 0x61#8).wf false = false ∧
    (Instr.build).wf false = false ∧ (Instr.assign).wf false = false ∧ (Instr.ctclr).wf false = true := by decide

/-- The control family, bit by bit: `op` 00000000, 00000001, 00000010. -/
theorem test_decode_control :
    decode false 0b0000000000000000#16 = .command .nop ∧ decode false 0b0000000100000000#16 = .command .reset ∧
    decode false 0b0000001000001010#16 = .command (.rdsr 10#8) := by decide

/-- The TB family: `op` 00010000 to 00010011. -/
theorem test_decode_tree_builder :
    decode true 0b0001000000000000#16 = .command .fclr ∧ decode true 0b0001000101100001#16 = .command (.tab 97#8) ∧
    decode true 0b0001001011111111#16 = .command (.fget 255#8) ∧
    decode true 0b0001001100000000#16 = .command .build := by decide

/-- The code-table family: `op` 00100000 to 00100101. -/
theorem test_decode_code_table :
    decode true 0b0010000000000000#16 = .command .assign ∧ decode false 0b0010000100000000#16 = .command .ctclr ∧
    decode false 0b0010001000000000#16 = .command .pclr ∧ decode false 0b0010001100000001#16 = .command (.pbit true) ∧
    decode false 0b0010010001111000#16 = .command (.ctset 120#8) ∧
    decode false 0b0010010110000000#16 = .command (.ctget 128#8) := by decide

/-- The encoder and the packer: `op` 00110000, 01000000, 01000001. -/
theorem test_decode_encoder_packer :
    decode false 0b0011000001100001#16 = .command (.enc 97#8) ∧
    decode false 0b0100000000000000#16 = .command (.pkbit false) ∧
    decode false 0b0100000000000001#16 = .command (.pkbit true) ∧
    decode false 0b0100000100000000#16 = .command .flush := by decide

/-- V-DEC: one word per clause of R98, and words next to a legal one. -/
theorem test_decode_illegal :
    decode true 0x0300#16 = .illegal .unassignedOp ∧ decode true 0x8000#16 = .illegal .unassignedOp ∧
    decode true 0x0001#16 = .illegal .argNotZero ∧ decode true 0x4101#16 = .illegal .argNotZero ∧
    decode true 0x2302#16 = .illegal .argNotBit ∧ decode true 0x4002#16 = .illegal .argNotBit ∧
    decode true 0x020B#16 = .illegal .noSuchRegister ∧ decode false 0x1161#16 = .illegal .noTreeBuilder ∧
    decode true 0xFFFF#16 = .illegal .unassignedOp := by decide

/-! ### One step of each command -/

/-- V-CTL 1: `NOP` changes nothing. -/
theorem test_nop : (after 0x0000#16 treeHeld).nodes = treeHeld.nodes ∧ (after 0x0000#16 treeHeld).err = 0#8 := by decide +kernel

/-- V-CTL 4: `RESET` clears the codes and the pending bit; no byte is sent. -/
theorem test_reset :
    (after 0x0100#16 { coded with acc := [true], bitLen := 1#32, out := [0x4C#8] }).acc = [] ∧
    (after 0x0100#16 { coded with acc := [true], bitLen := 1#32, out := [0x4C#8] }).out = [0x4C#8] ∧
    codeAt (after 0x0100#16 { coded with acc := [true], bitLen := 1#32, out := [0x4C#8] }).ct 0x61#8 = [] := by decide +kernel

/-- V-CTL 5: `STATUS` with one bit pending is 0x0C. -/
theorem test_rdsr_status :
    (after 0x0200#16 { State.reset with acc := [true], bitLen := 1#32 }).rsp = [0x00#8, 0x00#8, 0x00#8, 0x0C#8] := by
  decide +kernel

/-- V-FLT 2: `RDSR 11` is an illegal command. -/
theorem test_rdsr_reserved :
    (after 0x020B#16 State.reset).err = 1#8 ∧ (after 0x020B#16 State.reset).errInfo = 0x020B#16 := by decide +kernel

/-- V-TB 11: `FCLR` drops the tree and the counts. -/
theorem test_fclr :
    (after 0x1000#16 treeHeld).tree = false ∧ (after 0x1000#16 treeHeld).nodes = [] ∧
    countAt (after 0x1000#16 treeHeld).ft 0x61#8 = 0#32 := by decide +kernel

/-- V-TB 15: the last count that fits. -/
theorem test_tab_last :
    (after 0x1161#16 nearlyFull).total = 0xFFFFFFFF#32 ∧
    countAt (after 0x1161#16 nearlyFull).ft 0x61#8 = 0xFFFFFFFF#32 ∧ (after 0x1161#16 nearlyFull).nsyms = 1#9 := by
  decide +kernel

/-- V-FLT 6: the count that does not. -/
theorem test_tab_overflow :
    (after 0x1162#16 full).err = 5#8 ∧ (after 0x1162#16 full).errInfo = 0x1162#16 ∧
    countAt (after 0x1162#16 full).ft 0x62#8 = 0#32 ∧ (after 0x1162#16 full).nsyms = 1#9 := by decide +kernel

/-- E1: `FGET 'a'`, and V-TB 10: `FGET 'z'`. -/
theorem test_fget :
    (after 0x1261#16 tabulated).rsp = [0x00#8, 0x00#8, 0x00#8, 0x04#8] ∧
    (after 0x127A#16 tabulated).rsp = [0x00#8, 0x00#8, 0x00#8, 0x00#8] := by decide +kernel

/-- E8: the nodes of "abacabad". -/
theorem test_build :
    (after 0x1300#16 tabulated).nodes = [.leaf 0x61#8 4#32, .leaf 0x62#8 2#32, .leaf 0x63#8 1#32, .leaf 0x64#8 1#32,
      .internal 2#32 2 3, .internal 4#32 1 4, .internal 8#32 0 5] ∧
    (after 0x1300#16 tabulated).pq = [6] ∧ (after 0x1300#16 tabulated).root = 6 ∧
    (after 0x1300#16 tabulated).tree = true := by decide +kernel

/-- V-TB6: ties between a leaf and an earlier merge. -/
theorem test_build_ties :
    (after 0x1300#16 { State.reset with
      ft := counts [(0x61#8, 2#32), (0x62#8, 3#32), (0x63#8, 4#32), (0x64#8, 5#32), (0x65#8, 6#32)]
      total := 20#32, nsyms := 5#9 }).nodes.drop 5 =
    [.internal 5#32 0 1, .internal 9#32 2 3, .internal 11#32 5 4, .internal 20#32 6 7] := by decide +kernel

/-- V-CT, V-TB2: b = "0", a = "1", and the unit is cleared. -/
theorem test_assign :
    codeAt (after 0x2000#16 treeHeld).ct 0x62#8 = [false] ∧ codeAt (after 0x2000#16 treeHeld).ct 0x61#8 = [true] ∧
    codeAt (after 0x2000#16 treeHeld).ct 0x63#8 = [] ∧ (after 0x2000#16 treeHeld).nodes = [] ∧
    (after 0x2000#16 treeHeld).total = 0#32 := by decide +kernel

/-- E6: one symbol gets the code "0". -/
theorem test_assign_one : codeAt (after 0x2000#16 leafHeld).ct 0x61#8 = [false] := by decide +kernel

/-- V-CT 8: `CTCLR`. -/
theorem test_ctclr : codeAt (after 0x2100#16 coded).ct 0x61#8 = [] ∧ codeAt (after 0x2100#16 coded).ct 0x64#8 = [] := by decide +kernel

/-- V-CT 5: `PCLR` discards staged bits. -/
theorem test_pclr : (after 0x2200#16 { State.reset with path := [true, true] }).path = [] := by decide +kernel

/-- V-CT 3: `PBIT` appends at the end. -/
theorem test_pbit : (after 0x2300#16 { State.reset with path := [true] }).path = [true, false] := by decide +kernel

/-- V-FLT 4: the 256th bit. -/
theorem test_pbit_too_long :
    (after 0x2301#16 longPath).err = 4#8 ∧
    (after 0x2301#16 longPath).path.length = 255 := by decide +kernel

/-- V-CT 3: `CTSET` stores the staged code and empties `PATH`. -/
theorem test_ctset :
    codeAt (after 0x2478#16 { State.reset with path := [true, false] }).ct 0x78#8 = [true, false] ∧
    (after 0x2478#16 { State.reset with path := [true, false] }).path = [] := by decide +kernel

/-- V-FLT 3: nothing staged. -/
theorem test_ctset_empty :
    (after 0x2461#16 coded).err = 3#8 ∧ (after 0x2461#16 coded).errInfo = 0x2461#16 ∧
    codeAt (after 0x2461#16 coded).ct 0x61#8 = [false] := by decide +kernel

/-- V-CT 4: a nine-bit code is sent as `09 C0 80`. -/
theorem test_ctget :
    (after 0x2500#16 { State.reset with
      ct := table [(0x00#8, [true, true, false, false, false, false, false, false, true])] }).rsp =
    [0x09#8, 0xC0#8, 0x80#8] := by decide +kernel

/-- V-ENC 1: the fifth `ENC` supplies the eighth bit. -/
theorem test_enc :
    (after 0x3061#16 { coded with acc := [false, true, false, false, true, true, false], bitLen := 7#32 }).out =
      [0x4C#8] ∧
    (after 0x3061#16 { coded with acc := [false, true, false, false, true, true, false], bitLen := 7#32 }).acc = [] := by
  decide +kernel

/-- V-FLT 8: a code that does not fit is not appended at all. -/
theorem test_enc_overflow :
    (after 0x3064#16 { coded with bitLen := 0xFFFFFFFD#32, acc := List.replicate 5 true }).err = 6#8 ∧
    (after 0x3064#16 { coded with bitLen := 0xFFFFFFFD#32, acc := List.replicate 5 true }).acc.length = 5 ∧
    (after 0x3064#16 { coded with bitLen := 0xFFFFFFFD#32, acc := List.replicate 5 true }).out = [] := by decide +kernel

/-- V-PK, s = 10101011: the byte is sent by the eighth `PKBIT`. -/
theorem test_pkbit :
    (after 0x4001#16 { State.reset with acc := [true, false, true, false, true, false, true], bitLen := 7#32 }).out =
    [0xAB#8] := by decide +kernel

/-- V-FLT 7: `LengthOverflow` by `PKBIT`. -/
theorem test_pkbit_overflow :
    (after 0x4001#16 longest).err = 6#8 ∧ (after 0x4001#16 longest).errInfo = 0x4001#16 ∧
    (after 0x4001#16 longest).acc.length = 7 ∧ (after 0x4001#16 longest).bitLen = 0xFFFFFFFF#32 := by decide +kernel

/-- E8: the last byte `9C` of the stream of 14 bits. -/
theorem test_flush :
    (after 0x4100#16 { coded with acc := [true, false, false, true, true, true], bitLen := 14#32 }).out = [0x9C#8] ∧
    (after 0x4100#16 { coded with acc := [true, false, false, true, true, true], bitLen := 14#32 }).lastLen = 14#32 := by
  decide +kernel

/-- V-PK 4: a stream of `2^32 - 1` bits. -/
theorem test_flush_longest :
    (after 0x4100#16 longest).out = [0xFE#8] ∧ (after 0x4100#16 longest).lastLen = 0xFFFFFFFF#32 ∧
    (after 0x4100#16 longest).bitLen = 0#32 := by decide +kernel

/-- V-FLT 1: `TAB`, an illegal word and `RDSR 11` are dropped in the fault state. -/
theorem test_fault_state :
    (after 0x1161#16 missed).total = 0#32 ∧ (after 0xFFFF#16 missed).errInfo = 0x3061#16 ∧
    (after 0x020B#16 missed).errInfo = 0x3061#16 := by decide +kernel

/-- spec/70_reset_and_hazards.md R280: `rst` is the reset too. -/
theorem test_rst : (match step { missed with cmd := [.rst] } with
    | .next t => t.err == 0#8 && t.errInfo == 0#16 && t.cmd == []
    | .fault _ => false
    | .refused _ => false) = true := by decide +kernel

/-! ### Witnesses

`test_meets_<Obligation>`: a state and operands that meet the hypotheses of the obligation together, one conjunct per
clause, at the ends of the clause's range. -/

theorem test_meets_DecodeAndEncodeAgree :
    decode true 0x020A#16 = .command (.rdsr 10#8) ∧ (Instr.rdsr 10#8).wf true = true ∧
    0x020A#16 = encode (.rdsr 10#8) := by decide

theorem test_meets_IllegalWordsAreTheFiveClauses :
    State.reset.hasTb = true ∧ State.reset.err = 0#8 ∧ missed.hasTb = true ∧ missed.err ≠ 0#8 ∧
    noUnit.hasTb = false ∧ noUnit.err = 0#8 ∧
    decode true 0x4200#16 = .illegal .unassignedOp ∧ decode true 0x2001#16 = .illegal .argNotZero ∧
    decode true 0x2302#16 = .illegal .argNotBit ∧ decode true 0x02FF#16 = .illegal .noSuchRegister ∧
    decode false 0x12FF#16 = .illegal .noTreeBuilder := by decide

theorem test_meets_StepRunsTheDecodedCommand :
    (placeWord 0x1161#16 tabulated).cmd = .word 0x1161#16 :: [] ∧
    decode (placeWord 0x1161#16 tabulated).hasTb 0x1161#16 = .command (.tab 0x61#8) := by decide

theorem test_meets_StepsAreTheRunOfTheWords :
    ({ State.reset with cmd := [.word 0x4001#16, .word 0x4100#16] } : State).cmd =
      [0x4001#16, 0x4100#16].map .word := by decide

theorem test_meets_IdleEngineKeepsItsState : treeHeld.cmd = [] := rfl

theorem test_meets_ResetLeavesTheTableOfValues :
    ({ treeHeld with cmd := [.rst, .word 0x0000#16] } : State).cmd = .rst :: [.word 0x0000#16] := rfl

theorem test_meets_NopDoesNothing : (0x01#8 : BitVec 8) ≠ 0x00#8 := by decide

theorem test_meets_ResetCommandResetsTheEngine : (0xFF#8 : BitVec 8) ≠ 0x00#8 ∧ missed.err ≠ 0#8 := by decide

theorem test_meets_RdsrSendsTheRegister :
    (10#8 : BitVec 8).toNat ≤ 10 ∧ 11 ≤ (11#8 : BitVec 8).toNat ∧ State.reset.err = 0#8 ∧ missed.err ≠ 0#8 := by decide

theorem test_meets_StatusBitsAreTheFlags :
    4 ≤ 4 ∧ longest.acc.length = longest.bitLen.toNat % 8 ∧ coded.acc.length = coded.bitLen.toNat % 8 := by decide

theorem test_meets_FclrClearsTheUnit : treeHeld.err = 0#8 ∧ treeHeld.hasTb = true := by decide

theorem test_meets_TabCountsOneOccurrence :
    full.err = 0#8 ∧ full.hasTb = true ∧ full.total.toNat = 2 ^ 32 - 1 ∧
    nearlyFull.err = 0#8 ∧ nearlyFull.hasTb = true ∧ nearlyFull.total.toNat ≠ 2 ^ 32 - 1 := by decide

theorem test_meets_FgetSendsTheCount :
    tabulated.err = 0#8 ∧ tabulated.hasTb = true ∧ missed.err ≠ 0#8 := by decide

/-- The queue of E8 after its leaves, two of equal weight; the node inserted ties with another. -/
theorem test_meets_PqInsertIsStable :
    ([2, 3, 1] : List Nat).Pairwise fun a b =>
      (weightAt [.leaf 0x61#8 4#32, .leaf 0x62#8 2#32, .leaf 0x63#8 1#32, .leaf 0x64#8 1#32, .internal 2#32 2 3] a).toNat ≤
      (weightAt [.leaf 0x61#8 4#32, .leaf 0x62#8 2#32, .leaf 0x63#8 1#32, .leaf 0x64#8 1#32, .internal 2#32 2 3] b).toNat := by
  decide

theorem test_meets_BuildShapesTheTree :
    State.reset.err = 0#8 ∧ State.reset.hasTb = true ∧ observed State.reset.ft = [] ∧
    tabulated.err = 0#8 ∧ tabulated.hasTb = true ∧ observed tabulated.ft ≠ [] ∧
    countSum tabulated.ft = tabulated.total.toNat := by decide +kernel

/-- The second merge of E8: node 5 has the children 1 and 4, and node 0, a child of no earlier node, is queued behind. -/
theorem test_meets_BuildShapesTheTree_children :
    (after 0x1300#16 tabulated).nodes[5]? = some (Node.internal 4#32 1 4) ∧ 0 < 5 ∧ 0 ≠ 1 ∧ 0 ≠ 4 ∧
    ∀ (k : Nat) w l r, k < 5 → (after 0x1300#16 tabulated).nodes[k]? = some (Node.internal w l r) → 0 ≠ l ∧ 0 ≠ r := by
  rw [test_build.1]
  refine ⟨rfl, by decide, by decide, by decide, fun k w l r hk h => ?_⟩
  interval_cases k <;> simp at h
  omega

/-- The empty queue, one item, and the queue of E8 before its second merge. -/
theorem test_meets_MergeTakesTheTwoFrontItems :
    ({ nodes := [], pq := [] } : Forest).pq = [] ∧ ({ nodes := [.leaf 0x61#8 4#32], pq := [0] } : Forest).pq.length < 2 ∧
    ({ nodes := [.leaf 0x61#8 4#32], pq := [0] } : Forest).pq = 0 :: [] ∧
    ({ nodes := [.leaf 0x61#8 4#32, .leaf 0x62#8 2#32, .leaf 0x63#8 1#32, .leaf 0x64#8 1#32, .internal 2#32 2 3]
       pq := [1, 4, 0] } : Forest).pq = 1 :: 4 :: [0] := by decide

/-- The three merged nodes of E8. -/
theorem test_meets_MergeWeightsDoNotDecrease :
    tabulated.err = 0#8 ∧ tabulated.hasTb = true ∧ countSum tabulated.ft < 2 ^ 32 ∧ countSum full.ft < 2 ^ 32 ∧
    (observed tabulated.ft).length ≤ 4 ∧ 4 ≤ 6 ∧ 6 < (after 0x1300#16 tabulated).nodes.length := by decide +kernel

theorem test_meets_BuildIsAFunctionOfTheCounts :
    treeHeld.err = 0#8 ∧ treeHeld.hasTb = true ∧ ({ treeHeld with nodes := [], pq := [], tree := false } : State).err = 0#8 ∧
    ({ treeHeld with nodes := [], pq := [], tree := false } : State).hasTb = true ∧
    treeHeld.ft = ({ treeHeld with nodes := [], pq := [], tree := false } : State).ft := ⟨rfl, rfl, rfl, rfl, rfl⟩

/-- The invariant in a state that holds counts and a tree. -/
theorem test_inv_treeHeld : treeHeld.Inv where
  acc := by decide
  lengths := by decide +kernel
  counts := by decide +kernel
  queue := by decide
  tree := by decide
  nodes := by decide
  err := by decide
  capacity := by decide
  noUnit := by decide

/-- The invariant in the fault state of a build without the TB unit, a byte half full. -/
theorem test_inv_noUnit : State.Inv { noUnit with err := 2#8, errInfo := 0x3062#16, acc := [true], bitLen := 1#32 } where
  acc := by decide
  lengths := by decide +kernel
  counts := by decide +kernel
  queue := by decide
  tree := by decide
  nodes := by decide
  err := by decide
  capacity := by decide
  noUnit := fun _ => ⟨rfl, rfl, rfl, rfl, rfl, rfl, rfl⟩

theorem test_meets_CountsAndWeightsNeverWrap :
    treeHeld.Inv ∧ treeHeld.err = 0#8 ∧ treeHeld.hasTb = true ∧ treeHeld.total.toNat ≠ 2 ^ 32 - 1 :=
  ⟨test_inv_treeHeld, by decide, by decide, by decide⟩

theorem test_meets_CodesFollowTheTree :
    (∀ (i : Nat) w l r, treeHeld.nodes[i]? = some (Node.internal w l r) → l < i ∧ r < i) ∧
    treeHeld.nodes[1]? = some (Node.leaf 0x62#8 1#32) ∧ treeHeld.nodes[2]? = some (Node.internal 3#32 1 0) := by
  refine ⟨fun i w l r h => ?_, rfl, rfl⟩
  match i, h with
  | 2, h => injection h with h; injection h with _ h₁ h₂; omega

theorem test_meets_AssignStoresTheCodes :
    tabulated.err = 0#8 ∧ tabulated.hasTb = true ∧ tabulated.tree = false ∧
    leafHeld.err = 0#8 ∧ leafHeld.hasTb = true ∧ leafHeld.tree = true ∧
    leafHeld.nodes[leafHeld.root]? = some (Node.leaf 0x61#8 4#32) ∧
    treeHeld.err = 0#8 ∧ treeHeld.hasTb = true ∧ treeHeld.tree = true ∧
    treeHeld.nodes[treeHeld.root]? = some (Node.internal 3#32 1 0) ∧
    ((codes treeHeld.nodes treeHeld.root []).map Prod.fst).Nodup ∧
    (0x62#8, [false]) ∈ codes treeHeld.nodes treeHeld.root [] ∧
    0x63#8 ∉ (codes treeHeld.nodes treeHeld.root []).map Prod.fst := by decide

theorem test_meets_DerivedCodesAreCompleteAndPrefixFree :
    tabulated.err = 0#8 ∧ tabulated.hasTb = true ∧ 2 ≤ (observed tabulated.ft).length ∧
    countAt tabulated.ft 0x61#8 ≠ 0#32 ∧
    oneSymbol.err = 0#8 ∧ oneSymbol.hasTb = true ∧ (observed oneSymbol.ft).length = 1 ∧
    countAt oneSymbol.ft 0x61#8 ≠ 0#32 := by decide +kernel

theorem test_meets_MoreFrequentSymbolsHaveNoLongerCodes :
    tabulated.err = 0#8 ∧ tabulated.hasTb = true ∧ countSum tabulated.ft < 2 ^ 32 ∧
    0 < (countAt tabulated.ft 0x64#8).toNat ∧
    (countAt tabulated.ft 0x64#8).toNat < (countAt tabulated.ft 0x62#8).toNat := by decide +kernel

theorem test_meets_CtclrEmptiesTheTable : coded.err = 0#8 := rfl

theorem test_meets_PclrEmptiesThePath : ({ State.reset with path := [true] } : State).err = 0#8 := rfl

theorem test_meets_PbitAppendsToThePath :
    2 ≤ (0x02#8 : BitVec 8).toNat ∧ State.reset.err = 0#8 ∧
    longPath.path.length = 255 ∧
    ({ State.reset with path := List.replicate 254 true } : State).path.length ≠ 255 := by decide +kernel

theorem test_meets_CtsetStoresThePath :
    State.reset.err = 0#8 ∧ State.reset.path = [] ∧ ({ State.reset with path := [true] } : State).path ≠ [] := by decide

theorem test_meets_CtgetSendsTheCode :
    coded.err = 0#8 ∧ codeAt coded.ct 0x65#8 = [] ∧ codeAt coded.ct 0x64#8 ≠ [] ∧ missed.err ≠ 0#8 := by decide +kernel

/-- The sum at `2^32` and at `2^32 - 1`, with seven bits pending. -/
theorem test_meets_EncAppendsTheCode :
    coded.err = 0#8 ∧ codeAt coded.ct 0x65#8 = [] ∧
    longest.err = 0#8 ∧ codeAt longest.ct 0x61#8 ≠ [] ∧
    longest.bitLen.toNat + (codeAt longest.ct 0x61#8).length > 2 ^ 32 - 1 ∧
    nearlyLongest.err = 0#8 ∧ codeAt nearlyLongest.ct 0x61#8 ≠ [] ∧
    nearlyLongest.bitLen.toNat + (codeAt nearlyLongest.ct 0x61#8).length ≤ 2 ^ 32 - 1 ∧
    nearlyLongest.acc.length ≤ 7 ∧ longest.acc.length ≤ 7 ∧ (codeAt nearlyLongest.ct 0x61#8).length ≤ 255 := by
  decide +kernel

theorem test_meets_PkbitAppendsTheBit :
    2 ≤ (0x02#8 : BitVec 8).toNat ∧ longest.err = 0#8 ∧ longest.acc.length ≤ 7 ∧ longest.bitLen.toNat = 2 ^ 32 - 1 ∧
    nearlyLongest.err = 0#8 ∧ nearlyLongest.acc.length ≤ 7 ∧ nearlyLongest.acc.length ≠ 7 ∧
    nearlyLongest.bitLen.toNat ≠ 2 ^ 32 - 1 ∧
    ({ longest with bitLen := 7#32 } : State).acc.length = 7 ∧
    ({ longest with bitLen := 7#32 } : State).bitLen.toNat ≠ 2 ^ 32 - 1 := by decide

theorem test_meets_FlushEndsTheStream : 7 < 8 ∧ longest.err = 0#8 ∧ longest.acc ≠ [] ∧ coded.err = 0#8 ∧ coded.acc = [] := by
  decide

theorem test_meets_BitlenNeverWraps :
    longest.err = 0#8 ∧ longest.bitLen.toNat = 2 ^ 32 - 1 ∧ codeAt longest.ct 0x61#8 ≠ [] ∧
    longest.bitLen.toNat + (codeAt longest.ct 0x61#8).length > 2 ^ 32 - 1 ∧
    nearlyLongest.err = 0#8 ∧ nearlyLongest.bitLen.toNat ≠ 2 ^ 32 - 1 ∧ codeAt nearlyLongest.ct 0x61#8 ≠ [] ∧
    nearlyLongest.bitLen.toNat + (codeAt nearlyLongest.ct 0x61#8).length ≤ 2 ^ 32 - 1 := by decide +kernel

/-- E4: `pack("01001100100111")`, and V-PK: the one bit "1". -/
theorem test_meets_PackPlacesTheBits :
    7 < 8 ∧ (pack [false, true, false, false, true, true, false, false, true, false, false, true, true, true])[1]? =
      some 0x9C#8 ∧ (pack [true])[0]? = some 0x80#8 := by decide

theorem test_meets_UnpackingThePackingGivesTheBits :
    14 ≤ 8 * [0x4C#8, 0x9C#8].length ∧ 16 ≤ 8 * [0x4C#8, 0x9C#8].length ∧ 13 < 14 ∧
    [0x4C#8, 0x9C#8][13 / 8]? = some 0x9C#8 := by decide

theorem test_meets_StreamingPackerIsPack :
    (∀ i ∈ [Instr.pkbit true, .enc 0x63#8], appendsBits i = true) ∧ coded.err = 0#8 ∧ coded.acc = [] ∧
    coded.bitLen = 0#32 ∧ ∃ t, runCommands [Instr.pkbit true, .enc 0x63#8] coded = .next t ∧ t.err = 0#8 := by
  refine ⟨by decide, by decide, by decide, by decide, _, rfl, by decide +kernel⟩

theorem test_meets_EncodingATextPacksItsCodes :
    coded.err = 0#8 ∧ coded.acc = [] ∧ coded.bitLen = 0#32 ∧
    (∀ x ∈ [0x61#8, 0x62#8, 0x61#8, 0x63#8], codeAt coded.ct x ≠ []) ∧
    ([0x61#8, 0x62#8, 0x61#8, 0x63#8].flatMap (codeAt coded.ct)).length ≤ 2 ^ 32 - 1 := by decide +kernel

/-- The text of one symbol, tabulated behind the counts of "aab"; the run ends with no fault. -/
theorem test_meets_OwnTableNeverMisses :
    treeHeld.Inv ∧ treeHeld.err = 0#8 ∧ treeHeld.hasTb = true ∧
    ∃ t, runCommands ([0x61#8].map .tab ++ [.build, .assign] ++ [0x61#8].map .enc) treeHeld = .next t ∧ t.err = 0#8 :=
  ⟨test_inv_treeHeld, rfl, rfl, errIs_iff.mp (by decide +kernel)⟩

/-- A stream of 14 bits with its first byte sent; `ENC` and `FLUSH` do not fault. -/
theorem test_meets_EveryCommandKeepsTheStream :
    State.StreamIs
      { coded with out := [0x80#8, 0x4C#8], acc := [true, false, false, true, true, true], bitLen := 14#32 } [0x80#8]
      [false, true, false, false, true, true, false, false, true, false, false, true, true, true] ∧
    coded.err = 0#8 ∧
    (∃ t, exec (.enc 0x61#8) { coded with
      out := [0x80#8, 0x4C#8], acc := [true, false, false, true, true, true], bitLen := 14#32 } = .next t ∧ t.err = 0#8) ∧
    (∃ t, exec .flush { coded with
      out := [0x80#8, 0x4C#8], acc := [true, false, false, true, true, true], bitLen := 14#32 } = .next t ∧ t.err = 0#8) ∧
    Instr.enc 0x61#8 ≠ .reset ∧ Instr.enc 0x61#8 ≠ .flush ∧ Instr.flush ≠ .reset :=
  ⟨by decide, by decide, ⟨_, rfl, by decide +kernel⟩, ⟨_, rfl, by decide +kernel⟩, by decide, by decide, by decide⟩

/-- A word of each cause, and one of none. -/
theorem test_meets_FaultCausesAreTheTable :
    (State.reset.err = 0#8 ∧ ∃ t, execWord 0xFFFF#16 State.reset = .next t ∧ t.err = 1#8) ∧
    (coded.err = 0#8 ∧ ∃ t, execWord 0x3065#16 coded = .next t ∧ t.err = 2#8) ∧
    (coded.err = 0#8 ∧ ∃ t, execWord 0x2461#16 coded = .next t ∧ t.err = 3#8) ∧
    (longPath.err = 0#8 ∧ ∃ t, execWord 0x2300#16 longPath = .next t ∧ t.err = 4#8) ∧
    (full.err = 0#8 ∧ ∃ t, execWord 0x1162#16 full = .next t ∧ t.err = 5#8) ∧
    (longest.err = 0#8 ∧ ∃ t, execWord 0x4000#16 longest = .next t ∧ t.err = 6#8) ∧
    (longest.err = 0#8 ∧ ∃ t, execWord 0x3061#16 longest = .next t ∧ t.err = 6#8) ∧
    (coded.err = 0#8 ∧ ∃ t, execWord 0x3061#16 coded = .next t ∧ t.err = 0#8) := by
  refine ⟨⟨rfl, ?_⟩, ⟨rfl, ?_⟩, ⟨rfl, ?_⟩, ⟨rfl, ?_⟩, ⟨rfl, ?_⟩, ⟨rfl, ?_⟩, ⟨rfl, ?_⟩, ⟨rfl, ?_⟩⟩ <;>
    exact errIs_iff.mp (by decide +kernel)

theorem test_meets_FaultsArePrecise :
    State.reset.err = 0#8 ∧ ∃ t, step (placeWord 0x3061#16 State.reset) = .next t ∧ t.err ≠ 0#8 :=
  ⟨rfl, _, rfl, by decide +kernel⟩

theorem test_meets_FaultStateDropsOtherWords :
    missed.err ≠ 0#8 ∧ decode missed.hasTb 0x0100#16 = .command .reset ∧
    decode missed.hasTb 0x0201#16 = .command (.rdsr 1#8) ∧
    decode missed.hasTb 0x3061#16 ≠ .command .reset ∧ (∀ r, decode missed.hasTb 0x3061#16 ≠ .command (.rdsr r)) ∧
    decode missed.hasTb 0x020B#16 ≠ .command .reset ∧ ∀ r, decode missed.hasTb 0x020B#16 ≠ .command (.rdsr r) := by
  decide

theorem test_meets_OnlyResetLeavesTheFaultState :
    missed.err ≠ 0#8 ∧ (∃ t, step (placeWord 0x0100#16 missed) = .next t ∧ t.err = 0#8) ∧
    ∃ t, step { missed with cmd := [.rst] } = .next t ∧ t.err = 0#8 :=
  ⟨by decide, ⟨_, rfl, by decide +kernel⟩, _, rfl, by decide +kernel⟩

theorem test_meets_TheFirstFaultIsKept :
    missed.err ≠ 0#8 ∧ ∃ t, step (placeWord 0x2400#16 missed) = .next t ∧ t.err ≠ 0#8 :=
  ⟨by decide, _, rfl, by decide +kernel⟩

/-- No run reaches a state whose `ERR` is 7; the clause says that no command makes one out of another. -/
theorem test_meets_QueueEmptyIsNeverRaised :
    ∃ t, exec .nop { State.reset with err := 7#8 } = .next t ∧ t.err = 7#8 := ⟨_, rfl, by decide +kernel⟩

theorem test_meets_NonFaultEventsDoNotFault :
    State.reset.err = 0#8 ∧ State.reset.hasTb = true ∧ observed State.reset.ft = [] ∧ State.reset.tree = false ∧
    State.reset.acc = [] ∧ State.reset.bitLen = 0#32 ∧ codeAt State.reset.ct 0x61#8 = [] ∧
    countAt State.reset.ft 0x61#8 = 0#32 ∧
    ({ coded with path := [true] } : State).path ≠ [] ∧ codeAt ({ coded with path := [true] } : State).ct 0x61#8 ≠ [] ∧
    observed oneSymbol.ft = [0x61#8] := by decide +kernel

theorem test_meets_EveryStepKeepsTheInvariant :
    treeHeld.Inv ∧ ∃ t, step treeHeld = .next t := ⟨test_inv_treeHeld, _, rfl⟩

theorem test_meets_NoStepChangesTheBuild : ∃ t, step (placeWord 0x1000#16 noUnit) = .next t := ⟨_, rfl⟩

theorem test_meets_CodeTableAndPathWriters :
    (∃ t, exec (.enc 0x61#8) coded = .next t) ∧ Instr.enc 0x61#8 ≠ .reset ∧ Instr.enc 0x61#8 ≠ .assign ∧
    (∀ sym, Instr.enc 0x61#8 ≠ .ctset sym) ∧ Instr.enc 0x61#8 ≠ .ctclr ∧ Instr.enc 0x61#8 ≠ .pclr ∧
    ∀ b, Instr.enc 0x61#8 ≠ .pbit b := ⟨⟨_, rfl⟩, by simp⟩

theorem test_meets_PackerAndFaultRegisterWriters :
    (∃ t, exec (.ctset 0x61#8) coded = .next t) ∧ Instr.ctset 0x61#8 ≠ .reset ∧
    (∀ sym, Instr.ctset 0x61#8 ≠ .enc sym) ∧ (∀ b, Instr.ctset 0x61#8 ≠ .pkbit b) ∧
    Instr.ctset 0x61#8 ≠ .flush := ⟨⟨_, rfl⟩, by simp⟩

theorem test_meets_TreeBuilderStateWriters :
    (∃ t, exec (.fget 0x61#8) treeHeld = .next t) ∧ Instr.fget 0x61#8 ≠ .reset ∧ Instr.fget 0x61#8 ≠ .fclr ∧
    Instr.fget 0x61#8 ≠ .assign ∧ (∀ sym, Instr.fget 0x61#8 ≠ .tab sym) ∧ Instr.fget 0x61#8 ≠ .build :=
  ⟨⟨_, rfl⟩, by simp⟩

theorem test_meets_StreamsOnlyGrow :
    (∃ t, exec .pclr coded = .next t) ∧ (∀ sym, Instr.pclr ≠ .enc sym) ∧ (∀ b, Instr.pclr ≠ .pkbit b) ∧
    Instr.pclr ≠ .flush ∧ (∀ r, Instr.pclr ≠ .rdsr r) ∧ (∀ sym, Instr.pclr ≠ .fget sym) ∧
    ∀ sym, Instr.pclr ≠ .ctget sym := ⟨⟨_, rfl⟩, by simp⟩

theorem test_meets_ReadsHaveNoSideEffect :
    treeHeld.err = 0#8 ∧ (Instr.rdsr 10#8).wf treeHeld.hasTb = true ∧ (Instr.fget 0xFF#8).wf treeHeld.hasTb = true ∧
    (Instr.ctget 0x00#8).wf noUnit.hasTb = true ∧ noUnit.err = 0#8 := by decide

end Sys2Proof.Tests
end

section
/-! SUPPORT. A command seen from the engine alone (spec/00_scope.md R10): it reads neither the inputs that wait nor the
bytes already handed over, keeps the first and appends to the second, and always has a next state. The four statements
about the step follow. -/

namespace Sys2Proof.Machine

/-! ### The engine in a context -/

/-- The engine of `s` among other inputs and behind bytes handed over earlier: `cmd` waits, and `out` and `rsp` stand in
front of the bytes of `s` (spec/10_state.md R52). -/
def inContext (cmd : List HostInput) (out rsp : List Byte) (s : State) : State :=
  { s with cmd := cmd, out := out ++ s.out, rsp := rsp ++ s.rsp }

/-- `r` is a next state, and `r'` is that state in the context. -/
def Carries (cmd : List HostInput) (out rsp : List Byte) (r r' : Result) : Prop :=
  ∃ t, r = .next t ∧ r' = .next (inContext cmd out rsp t)

section
variable (cmd : List HostInput) (out rsp : List Byte)

/-! ### The named operations commute with the context -/

theorem inContext_emitOut (bytes : List Byte) (s : State) :
    inContext cmd out rsp (emitOut bytes s) = emitOut bytes (inContext cmd out rsp s) := by
  simp [emitOut, inContext]

theorem inContext_emitRsp (bytes : List Byte) (s : State) :
    inContext cmd out rsp (emitRsp bytes s) = emitRsp bytes (inContext cmd out rsp s) := by
  simp [emitRsp, inContext]

theorem inContext_pkAppend (b : Bool) (s : State) :
    inContext cmd out rsp (pkAppend b s) = pkAppend b (inContext cmd out rsp s) := by
  unfold pkAppend
  rw [apply_ite (inContext cmd out rsp)]
  exact if_congr Iff.rfl (inContext_emitOut ..) rfl

theorem inContext_pkAppendAll (c : BitString) (s : State) :
    inContext cmd out rsp (pkAppendAll c s) = pkAppendAll c (inContext cmd out rsp s) := by
  induction c generalizing s with
  | nil => rfl
  | cons b c ih => rw [pkAppendAll, pkAppendAll, ih, inContext_pkAppend]

theorem inContext_pkFlush (s : State) :
    inContext cmd out rsp (pkFlush s) = pkFlush (inContext cmd out rsp s) := by
  unfold pkFlush
  rw [apply_ite (inContext cmd out rsp)]
  exact if_congr Iff.rfl (inContext_emitOut ..) rfl

theorem inContext_holdTree (f : Forest) (s : State) :
    inContext cmd out rsp (holdTree f s) = holdTree f (inContext cmd out rsp s) := by
  unfold holdTree
  split <;> rfl

theorem statusValue_inContext (s : State) (reg : StatusReg) :
    statusValue (inContext cmd out rsp s) reg = statusValue s reg := by
  cases reg <;> rfl

variable {cmd out rsp}

/-! ### What stands around a command carries over -/

theorem carries_next {t t' : State} (h : inContext cmd out rsp t = t') :
    Carries cmd out rsp (.next t) (.next t') := ⟨t, rfl, by rw [h]⟩

theorem Carries.eq_next {t : State} {r' : Result} (h : Carries cmd out rsp (.next t) r') :
    r' = .next (inContext cmd out rsp t) := by
  obtain ⟨u, hu, hr'⟩ := h
  injection hu with hu
  rw [hr', hu]

/-- Raising a fault writes engine variables only (spec/60_exceptions.md R250). -/
theorem carries_raise (c : FaultCode) (w : Word16) (s : State) :
    Carries cmd out rsp (raise c w s) (raise c w (inContext cmd out rsp s)) := carries_next rfl

theorem carries_ite {c : Prop} [Decidable c] {r₁ r₁' r₂ r₂' : Result}
    (h₁ : Carries cmd out rsp r₁ r₁') (h₂ : Carries cmd out rsp r₂ r₂') :
    Carries cmd out rsp (if c then r₁ else r₂) (if c then r₁' else r₂') := by
  by_cases hc : c
  · rwa [if_pos hc, if_pos hc]
  · rwa [if_neg hc, if_neg hc]

theorem illegalWord_carries (w : Word16) (s : State) :
    Carries cmd out rsp (illegalWord w s) (illegalWord w (inContext cmd out rsp s)) :=
  carries_ite (carries_raise _ w s) (carries_next rfl)

/-- When the pseudocode carries over, so does the command: whether it is dropped or illegal is read off `ERR` and the
build. -/
theorem command_carries {i : Instr} {s : State} {body body' : Result} (h : Carries cmd out rsp body body') :
    Carries cmd out rsp (command i s body) (command i (inContext cmd out rsp s) body') :=
  carries_ite (carries_ite h (illegalWord_carries _ s)) (carries_next rfl)

/-- `BUILD` runs to its end: no `QueueEmpty` (spec/41_tree_builder.md R144). -/
theorem execBuild_eq {s : State} {f : Forest} (h : buildForest s.ft = some f) :
    execBuild s = command .build s (.next (holdTree f s)) := by simp [execBuild, h]

theorem execRdsr_carries (r : BitVec 8) (s : State) :
    Carries cmd out rsp (execRdsr r s) (execRdsr r (inContext cmd out rsp s)) := by
  unfold execRdsr
  cases statusReg r with
  | none => exact illegalWord_carries _ s
  | some reg =>
    refine carries_next ?_
    rw [inContext_emitRsp, statusValue_inContext]

/-- Every command has a next state, and carries over to any context (spec/00_scope.md R10). -/
theorem exec_carries (i : Instr) (s : State) :
    Carries cmd out rsp (exec i s) (exec i (inContext cmd out rsp s)) := by
  cases i
  case reset => exact carries_next (by simp [engineReset, inContext])
  case rdsr r => exact execRdsr_carries r s
  case nop | fclr | assign | ctclr | pclr => exact command_carries (carries_next rfl)
  case fget | ctget => exact command_carries (carries_next (inContext_emitRsp ..))
  case flush => exact command_carries (carries_next (inContext_pkFlush ..))
  case tab | pbit | ctset => exact command_carries (carries_ite (carries_raise ..) (carries_next rfl))
  case pkbit => exact command_carries (carries_ite (carries_raise ..) (carries_next (inContext_pkAppend ..)))
  case enc =>
    exact command_carries (carries_ite (carries_raise ..)
      (carries_ite (carries_raise ..) (carries_next (inContext_pkAppendAll ..))))
  case build =>
    obtain ⟨f, hf, -⟩ := buildForest_spec s.ft
    rw [exec, exec, execBuild_eq hf, execBuild_eq (s := inContext cmd out rsp s) hf]
    exact command_carries (carries_next (inContext_holdTree ..))

theorem execWord_carries (w : Word16) (s : State) :
    Carries cmd out rsp (execWord w s) (execWord w (inContext cmd out rsp s)) := by
  cases h : decode s.hasTb w with
  | command i =>
    rw [execWord_command h, execWord_command (s := inContext cmd out rsp s) h]
    exact exec_carries i s
  | illegal why =>
    rw [execWord_illegal h, execWord_illegal (s := inContext cmd out rsp s) h]
    exact illegalWord_carries w s

end

/-! ### The inputs that wait stay -/

/-- What carries over to the context made of the state's own inputs keeps those inputs. -/
theorem Carries.cmd_eq {c : List HostInput} {r : Result} (h : Carries c [] [] r r) :
    ∃ t, r = .next t ∧ t.cmd = c := by
  obtain ⟨t, rfl, ht⟩ := h
  injection ht with ht
  exact ⟨t, rfl, congrArg State.cmd ht⟩

/-- A command answers a next state and takes no further input. -/
theorem exec_next (i : Instr) (s : State) : ∃ t, exec i s = .next t ∧ t.cmd = s.cmd :=
  Carries.cmd_eq (exec_carries i s)

/-- A word answers a next state and takes no further input. -/
theorem execWord_next (w : Word16) (s : State) : ∃ t, execWord w s = .next t ∧ t.cmd = s.cmd :=
  Carries.cmd_eq (execWord_carries w s)

/-- The inputs behind a word wait, untouched, until it is done. -/
theorem execWord_with_cmd {w : Word16} {s t : State} (h : execWord w s = .next t) (rest : List HostInput) :
    execWord w { s with cmd := rest } = .next { t with cmd := rest } := by
  have hs := execWord_carries (cmd := rest) (out := []) (rsp := []) w s
  rw [h] at hs
  exact hs.eq_next

/-! ### Runs -/

theorem run_succ_of_next {M : Host.Core} {s t : M.State} (h : M.step s = .next t) (k : Nat) :
    M.run (k + 1) s = M.run k t := by simp [Host.Core.run, h]

end Sys2Proof.Machine

open Sys2Proof Sys2Proof.Machine

/-! ### The statements about the step -/

/-- Settles O9: the command carries over from the engine alone to the context of the full state. -/
theorem engineSeesOnlyItsStateAndTheWord : Obligations.EngineSeesOnlyItsStateAndTheWord := by
  intro i s
  obtain ⟨t, ht, hcmd⟩ := exec_next i { s with cmd := [], out := [], rsp := [] }
  have hs := exec_carries (cmd := s.cmd) (out := s.out) (rsp := s.rsp) i { s with cmd := [], out := [], rsp := [] }
  rw [ht] at hs
  refine ⟨t, ht, hcmd, ?_⟩
  simpa only [inContext, List.append_nil] using hs.eq_next

/-- Settles O10, by induction on the words: each step takes one, and the words behind it do not matter to it. -/
theorem stepsAreTheRunOfTheWords : Obligations.StepsAreTheRunOfTheWords := by
  intro ws
  induction ws with
  | nil =>
    intro s hs
    have he : s = { s with cmd := [] } := congrArg (fun c => { s with cmd := c }) hs
    exact congrArg Host.Outcome.next he
  | cons w ws ih =>
    intro s hs
    obtain ⟨t, ht, hcmd⟩ := execWord_next w { s with cmd := [] }
    have hstep : core.step s = .next { t with cmd := ws.map .word } :=
      (step_word hs).trans (execWord_with_cmd ht _)
    have hblank : { t with cmd := [] } = t := congrArg (fun c => { t with cmd := c }) hcmd.symm
    have hrest : Host.Core.run core ws.length { t with cmd := ws.map .word } = runWords ws t :=
      (ih { t with cmd := ws.map .word } rfl).trans (congrArg (runWords ws) hblank)
    rw [runWords, ht]
    exact (run_succ_of_next hstep ws.length).trans hrest

/-- Settles O6: the step is `execWord` of the oldest word, which is `exec` of the command it decodes to. -/
theorem stepRunsTheDecodedCommand : Obligations.StepRunsTheDecodedCommand := by
  intro s w rest hs
  refine ⟨step_word hs, fun i hi => ?_⟩
  rw [step_word hs]
  exact execWord_command hi

/-- Settles O8, by cases on the oldest input. -/
theorem everyStepAnswersANextState : Obligations.EveryStepAnswersANextState := by
  intro s
  match hs : s.cmd with
  | [] => exact ⟨s, step_idle hs⟩
  | .rst :: rest => exact ⟨_, step_rst hs⟩
  | .word w :: rest =>
    obtain ⟨t, ht, -⟩ := execWord_next w { s with cmd := rest }
    exact ⟨t, (step_word hs).trans ht⟩

end

section
/-! SUPPORT. The invariant of spec/10_state.md R36 and the writers of each variable: the frequency table as a list, the
forest `BUILD` holds, what every operation keeps, one step of any kind. The statements about the state follow. -/

namespace Sys2Proof.Machine

/-! ### The tables as lists -/

theorem toList_eq_map_countAt (ft : Vector Word32 256) : ft.toList = allSymbols.map (countAt ft) := by
  refine List.ext_getElem (by simp [allSymbols]) fun i hi _ => ?_
  have hi : i < 256 := by simpa using hi
  simp [allSymbols, countAt, Nat.mod_eq_of_lt hi]

/-- Writing one count replaces one item of the list and keeps those around it. -/
theorem toList_setCount (ft : Vector Word32 256) (sym : Symbol) : ∃ before after,
    ft.toList = before ++ countAt ft sym :: after ∧ ∀ n, (setCount ft sym n).toList = before ++ n :: after := by
  have hlt : sym.toNat < ft.toList.length := by simpa using sym.isLt
  refine ⟨ft.toList.take sym.toNat, ft.toList.drop (sym.toNat + 1), ?_, fun n => ?_⟩
  · have hget : ft.toList[sym.toNat] = countAt ft sym := by simp [countAt]
    rw [← hget, ← List.drop_eq_getElem_cons hlt, List.take_append_drop]
  · rw [setCount, Vector.toList_set, List.set_eq_take_append_cons_drop, if_pos hlt]

theorem countSum_setCount (ft : Vector Word32 256) (sym : Symbol) (n : Word32) :
    countSum (setCount ft sym n) + (countAt ft sym).toNat = countSum ft + n.toNat := by
  obtain ⟨before, after, hft, hset⟩ := toList_setCount ft sym
  simp only [countSum, hset, hft, List.map_append, List.map_cons, List.sum_append, List.sum_cons]
  omega

/-- No count is greater than the sum of all. -/
theorem countAt_le_countSum (ft : Vector Word32 256) (sym : Symbol) : (countAt ft sym).toNat ≤ countSum ft := by
  obtain ⟨before, after, hft, -⟩ := toList_setCount ft sym
  simp only [countSum, hft, List.map_append, List.map_cons, List.sum_append, List.sum_cons]
  omega

theorem observed_length (ft : Vector Word32 256) : (observed ft).length = ft.toList.countP (· != 0#32) := by
  rw [toList_eq_map_countAt, List.countP_map, observed, List.countP_eq_length_filter]
  rfl

theorem observed_length_le (ft : Vector Word32 256) : (observed ft).length ≤ 256 := by
  rw [← allSymbols_length]
  exact List.length_filter_le _ _

/-- A count that becomes non-zero makes its symbol observed, if it was not. -/
theorem observed_length_setCount (ft : Vector Word32 256) (sym : Symbol) {n : Word32} (hn : n ≠ 0#32) :
    (observed (setCount ft sym n)).length =
      if countAt ft sym = 0#32 then (observed ft).length + 1 else (observed ft).length := by
  obtain ⟨before, after, hft, hset⟩ := toList_setCount ft sym
  simp only [observed_length, hset, hft, List.countP_append, List.countP_cons]
  by_cases h0 : countAt ft sym = 0#32
  · simp [h0, hn, Nat.add_assoc]
  · simp [h0, hn]

/-- The symbols that are not observed add nothing to the sum of the counts. -/
theorem sum_observed (ft : Vector Word32 256) :
    ((observed ft).map fun x => (countAt ft x).toNat).sum = countSum ft := by
  rw [countSum, toList_eq_map_countAt, List.map_map, observed]
  induction allSymbols with
  | nil => rfl
  | cons x syms ih =>
    by_cases hx : countAt ft x = 0#32
    · simpa [hx] using ih
    · simpa [hx] using ih

@[simp] theorem countSum_noCounts : countSum noCounts = 0 := by
  rw [countSum, noCounts, Vector.toList_replicate, List.map_replicate, List.sum_replicate]
  rfl

@[simp] theorem observed_noCounts : observed noCounts = [] := by simp [observed]

/-- No code of the table is longer than `n`. -/
def CodesWithin (n : Nat) (ct : Vector BitString 256) : Prop := ∀ x, (codeAt ct x).length ≤ n

theorem codesWithin_iff {n : Nat} {ct : Vector BitString 256} :
    CodesWithin n ct ↔ ∀ c ∈ ct.toList, c.length ≤ n := by
  constructor
  · intro h c hc
    obtain ⟨i, hi, rfl⟩ := List.mem_iff_getElem.mp hc
    have hi : i < 256 := by simpa using hi
    simpa [codeAt, Nat.mod_eq_of_lt hi] using h (BitVec.ofNat 8 i)
  · exact fun h x => h _ (by simp [codeAt])

theorem codesWithin_noCodes (n : Nat) : CodesWithin n noCodes := fun x => by simp

theorem codesWithin_setCode {n : Nat} {ct : Vector BitString 256} {c : BitString} (sym : Symbol)
    (h : CodesWithin n ct) (hc : c.length ≤ n) : CodesWithin n (setCode ct sym c) := by
  intro x
  rw [codeAt_setCode]
  split
  · exact hc
  · exact h x

theorem codesWithin_storeCodes {n : Nat} {l : List (Symbol × BitString)} {ct : Vector BitString 256}
    (hl : ∀ e ∈ l, e.2.length ≤ n) (h : CodesWithin n ct) : CodesWithin n (storeCodes l ct) := by
  induction l generalizing ct with
  | nil => exact h
  | cons e l ih =>
    obtain ⟨sym, c⟩ := e
    exact ih (fun e he => hl e (List.mem_cons_of_mem _ he))
      (codesWithin_setCode sym h (hl (sym, c) List.mem_cons_self))

/-! ### The forest `BUILD` ends with -/

section
variable {ft : Vector Word32 256} {f : Forest} (h : buildForest ft = some f)
include h

theorem buildForest_ok : ForestOk ft (observed ft) f ∧ f.pq.length ≤ 1 := by
  obtain ⟨f', hf', hok⟩ := buildForest_spec ft
  exact Option.some.inj (h.symm.trans hf') ▸ hok

/-- The newest node is queued: a leaf and a merge both queue the node they make (spec/41_tree_builder.md R148). -/
theorem buildForest_newest_queued : f.nodes = [] ∨ f.nodes.length - 1 ∈ f.pq := by
  obtain ⟨f', hf', hnew, -⟩ := buildForest_induct (ft := ft)
    (fun _ f => f.nodes = [] ∨ f.nodes.length - 1 ∈ f.pq) (.inl rfl)
    (fun _ _ _ _ _ => .inr (by simp)) (fun _ _ _ _ _ _ => .inr (by simp))
  exact Option.some.inj (h.symm.trans hf') ▸ hnew

theorem buildForest_weightsExact (hsum : countSum ft < 2 ^ 32) : WeightsExact f.nodes := by
  obtain ⟨f', hf', hw, -⟩ := buildForest_exact ft (by rwa [sum_observed])
  exact Option.some.inj (h.symm.trans hf') ▸ hw

/-- An empty queue is left by no nodes only. -/
theorem buildForest_nodes_of_queue_nil (hq : f.pq = []) : f.nodes = [] := by
  rcases buildForest_newest_queued h with hn | hn
  · exact hn
  · simp [hq] at hn

/-- The one survivor is the newest node. -/
theorem buildForest_root {r : Nat} (hq : f.pq = [r]) : 1 ≤ f.nodes.length ∧ r = f.nodes.length - 1 := by
  have hr : r < f.nodes.length := (buildForest_ok h).1.bound r (by simp [hq])
  rcases buildForest_newest_queued h with hn | hn
  · simp [hn] at hr
  · rw [hq, List.mem_singleton] at hn
    exact ⟨by omega, hn.symm⟩

/-- Leaves and merges fit the node memory: `n` leaves take `n - 1` merges (spec/20_memory.md R64). -/
theorem buildForest_capacity : f.nodes.length ≤ 511 := by
  obtain ⟨hok, -⟩ := buildForest_ok h
  have hsize := hok.size
  have hobs := observed_length_le ft
  by_cases hq : f.pq = []
  · simp [buildForest_nodes_of_queue_nil h hq]
  · have := List.length_pos_of_ne_nil hq
    omega

/-- No leaf of the tree lies deeper than 255: it has at most 256 leaves (spec/42_code_table.md R184). -/
theorem buildForest_depth {r : Nat} (hq : f.pq = [r]) : ∀ e ∈ codes f.nodes r [], e.2.length ≤ 255 := by
  intro e he
  obtain ⟨hok, -⟩ := buildForest_ok h
  have hleaves : (codes f.nodes r []).length = (observed ft).length := by
    simpa [queuedSymbols, hq] using hok.symbols.length_eq
  have hdepth := codes_depth hok.acyclic r e he
  have hobs := observed_length_le ft
  omega

/-- R36 clause 6 holds of the nodes `BUILD` makes. -/
theorem buildForest_nodeOk (hsum : countSum ft < 2 ^ 32) (i : Nat) : nodeOk f.nodes i = true := by
  obtain ⟨hok, -⟩ := buildForest_ok h
  unfold nodeOk
  split
  · next w l r hi =>
    obtain ⟨hl, hr⟩ := hok.acyclic i w l r hi
    have hne := (hok.internal i w l r hi).1
    have hw := buildForest_weightsExact h hsum i w l r hi
    simp [hl, hr, hne, hw]
  · rfl

end

/-! ### What keeps the invariant -/

/-- The reset state meets the invariant, on either build. -/
theorem inv_resetOf (hasTb : Bool) : (State.resetOf hasTb).Inv where
  acc := rfl
  lengths := ⟨codesWithin_iff.mp (codesWithin_noCodes _), Nat.zero_le _⟩
  counts := ⟨countSum_noCounts, congrArg List.length observed_noCounts⟩
  queue := ⟨.nil, by simp [State.resetOf]⟩
  tree := ⟨by simp [State.resetOf], fun _ => ⟨rfl, rfl, rfl⟩⟩
  nodes := fun _ hi => absurd hi (Nat.not_lt_zero _)
  err := ⟨Nat.zero_le _, fun _ => rfl⟩
  capacity := ⟨Nat.zero_le _, by simp [State.resetOf]⟩
  noUnit := fun _ => ⟨rfl, rfl, rfl, rfl, rfl, rfl, rfl⟩

theorem inv_engineReset (s : State) : (engineReset s).Inv := { inv_resetOf s.hasTb with }

section
variable {s : State} (h : s.Inv)
include h

theorem inv_with_cmd (rest : List HostInput) : State.Inv { s with cmd := rest } := { h with }

theorem inv_emitRsp (bytes : List Byte) : (emitRsp bytes s).Inv := { h with }

/-- A fault writes a code from 1 to 7, so it binds no `ERRINFO` (R36 clause 7). -/
theorem inv_faulted (c : FaultCode) (w : Word16) : (faulted c w s).Inv :=
  { h with
    err := by
      obtain ⟨h1, h7⟩ := errCode_range c
      refine ⟨h7, fun h0 => ?_⟩
      rw [faulted_err] at h0
      simp [h0] at h1 }

/-- What the table and the staging register are written with must be short enough (R36 clause 2). -/
theorem inv_with_ct_path {ct : Vector BitString 256} {path : BitString} (hct : CodesWithin 255 ct)
    (hpath : path.length ≤ 255) : State.Inv { s with ct := ct, path := path } :=
  { h with lengths := ⟨codesWithin_iff.mp hct, hpath⟩ }

theorem codesWithin_of_inv : CodesWithin 255 s.ct := codesWithin_iff.mpr h.lengths.1

theorem inv_tbDiscard : (tbDiscard s).Inv :=
  { h with
    counts := (inv_resetOf s.hasTb).counts
    queue := (inv_resetOf s.hasTb).queue
    tree := (inv_resetOf s.hasTb).tree
    nodes := (inv_resetOf s.hasTb).nodes
    capacity := (inv_resetOf s.hasTb).capacity
    noUnit := (inv_resetOf s.hasTb).noUnit }

/-- Below the limit of `TOTAL` neither it nor a count wraps, and at most 256 symbols are observed (R36 clause 3). -/
theorem inv_countSymbol (sym : Symbol) (htb : s.hasTb = true) (ht : s.total.toNat ≠ 2 ^ 32 - 1) :
    (countSymbol sym s).Inv :=
  { h with
    counts := by
      obtain ⟨hsum, hobs⟩ := h.counts
      have hlt : s.total.toNat < 2 ^ 32 := s.total.isLt
      have hle := countAt_le_countSum s.ft sym
      have hobs256 := observed_length_le s.ft
      have hinc : (countAt s.ft sym + 1#32).toNat = (countAt s.ft sym).toNat + 1 := by
        rw [BitVec.toNat_add, BitVec.toNat_ofNat]; omega
      have hne : countAt s.ft sym + 1#32 ≠ 0#32 := by
        intro e; rw [e, BitVec.toNat_ofNat] at hinc; omega
      have hset := countSum_setCount s.ft sym (countAt s.ft sym + 1#32)
      refine ⟨?_, ?_⟩
      · rw [countSymbol_ft, countSymbol_total, BitVec.toNat_add, BitVec.toNat_ofNat]
        omega
      · rw [countSymbol_ft, countSymbol_nsyms, observed_length_setCount _ _ hne]
        split
        · rw [BitVec.toNat_add, BitVec.toNat_ofNat]; omega
        · exact hobs
    noUnit := by simp [NoUnitOk, htb] }

/-- A held forest meets clauses 4, 5 and 6 of R36 and the capacities. -/
theorem inv_holdTree {f : Forest} (htb : s.hasTb = true) (hf : buildForest s.ft = some f) : (holdTree f s).Inv := by
  obtain ⟨hok, hlen⟩ := buildForest_ok hf
  have hsum : countSum s.ft < 2 ^ 32 := h.counts.1 ▸ s.total.isLt
  match hq : f.pq with
  | [] =>
    have hn := buildForest_nodes_of_queue_nil hf hq
    have he : holdTree f s = { s with nodes := [], pq := [], tree := false, root := 0 } := by
      simp only [holdTree, hq, hn]
    rw [he]
    exact { h with
      queue := (inv_resetOf s.hasTb).queue
      tree := (inv_resetOf s.hasTb).tree
      nodes := (inv_resetOf s.hasTb).nodes
      capacity := (inv_resetOf s.hasTb).capacity
      noUnit := by simp [NoUnitOk, htb] }
  | [r] =>
    have he : holdTree f s = { s with nodes := f.nodes, pq := f.pq, tree := true, root := r } := by
      simp only [holdTree, hq]
    obtain ⟨hpos, hr⟩ := buildForest_root hf hq
    rw [he]
    exact { h with
      queue := ⟨hok.sorted, hok.bound⟩
      tree := ⟨fun _ => ⟨hpos, hr, hq⟩, by simp⟩
      nodes := fun i _ => buildForest_nodeOk hf hsum i
      capacity := ⟨buildForest_capacity hf, fun _ => buildForest_depth hf hq⟩
      noUnit := by simp [NoUnitOk, htb] }
  | _ :: _ :: _ => simp [hq] at hlen

/-- Every code `ASSIGN` stores fits an entry. -/
theorem assignedCodes_length_le : ∀ e ∈ assignedCodes s, e.2.length ≤ 255 := by
  intro e he
  unfold assignedCodes at he
  split at he
  · next ht =>
    split at he
    · obtain rfl := List.mem_singleton.mp he
      exact Nat.le_add_left 1 254
    · exact h.capacity.2 ht e he
  · simp at he

/-- Appending keeps `len(ACC) = BITLEN mod 8` (R36 clause 1); 8 divides `2^32`, so the limit of `BITLEN` is not needed. -/
theorem inv_pkAppendAll (c : BitString) : (pkAppendAll c s).Inv := by
  have hacc := h.acc
  rw [pkAppendAll_eq c s (by omega)]
  exact { h with
    acc := by
      simp only [AccOk, List.length_drop, List.length_append, BitVec.toNat_add, BitVec.toNat_ofNat]
      omega }

theorem inv_pkFlush : (pkFlush s).Inv := by
  unfold pkFlush
  split
  · exact { h with acc := rfl }
  · exact { h with acc := rfl }

end

theorem acts_inv {s t : State} {i : Instr} (h : s.Inv) (hw : i.wf s.hasTb = true) (ha : Acts s i t) : t.Inv := by
  have hpath : s.path.length ≤ 255 := h.lengths.2
  have hct := codesWithin_of_inv h
  cases ha with
  | nop => exact h
  | fclr => exact inv_tbDiscard h
  | tab sym ht => exact inv_countSymbol h sym hw ht
  | fget sym => exact inv_emitRsp h _
  | build f hf => exact inv_holdTree h hw hf
  | assign =>
    have hcodes := codesWithin_storeCodes (assignedCodes_length_le h) (codesWithin_noCodes 255)
    exact inv_tbDiscard (inv_with_ct_path h hcodes (by simp))
  | ctclr => exact inv_with_ct_path h (codesWithin_noCodes 255) hpath
  | pclr => exact inv_with_ct_path h hct (by simp)
  | pbit b hne => exact inv_with_ct_path h hct (by simp only [List.length_append, List.length_singleton]; omega)
  | ctset sym hne => exact inv_with_ct_path h (codesWithin_setCode sym hct hpath) (by simp)
  | ctget sym => exact inv_emitRsp h _
  | enc sym hne hl => exact inv_pkAppendAll h _
  | pkbit b hne => exact inv_pkAppendAll h [b]
  | flush => exact inv_pkFlush h

theorem does_inv {s t : State} {i : Instr} (h : s.Inv) (hd : Does s i t) : t.Inv := by
  cases hd with
  | reset => exact inv_engineReset s
  | rdsr r reg hr => exact inv_emitRsp h _
  | dropped => exact h
  | faults _ c => exact inv_faulted h _ _
  | acts _ _ _ hw ha => exact acts_inv h hw ha

/-! ### One step of any kind -/

/-- What an illegal word and every command keep, every word keeps. -/
theorem execWord_keeps {P : State → Prop} {w : Word16} {s t : State} (h : execWord w s = .next t) (hs : P s)
    (hfault : P (faulted .illegalCommand w s)) (hdoes : ∀ i, Does s i t → P t) : P t := by
  cases hd : decode s.hasTb w with
  | command i =>
    rw [execWord_command hd] at h
    exact hdoes i (exec_does h)
  | illegal why =>
    rw [execWord_illegal hd] at h
    by_cases he : s.err = 0#8
    · rw [illegalWord_faults he] at h
      injection h with h
      exact h ▸ hfault
    · rw [illegalWord_dropped he] at h
      injection h with h
      exact h ▸ hs

/-- What taking an input, resetting, an illegal word and every command keep, every step keeps. -/
theorem step_keeps {P : State → Prop} (hcmd : ∀ s rest, P s → P { s with cmd := rest })
    (hreset : ∀ s, P s → P (engineReset s)) (hfault : ∀ w s, P s → P (faulted .illegalCommand w s))
    (hdoes : ∀ s i t, P s → Does s i t → P t) {s t : State} (hs : P s) (h : step s = .next t) : P t := by
  match hc : s.cmd with
  | [] =>
    rw [step_idle hc] at h
    injection h with h
    exact h ▸ hs
  | .rst :: rest =>
    rw [step_rst hc] at h
    injection h with h
    exact h ▸ hreset _ (hcmd s rest hs)
  | .word w :: rest =>
    rw [step_word hc] at h
    have hs := hcmd s rest hs
    exact execWord_keeps h hs (hfault w _ hs) fun i hd => hdoes _ i t hs hd

/-! ### What a command keeps -/

/-- What every way a command can end keeps, the command keeps. -/
theorem exec_keeps {P : State → Prop} {s t : State} {i : Instr} (h : exec i s = .next t)
    (hreset : i = .reset → P (engineReset s)) (hrdsr : ∀ r bytes, i = .rdsr r → P (emitRsp bytes s)) (hs : P s)
    (hfault : ∀ c w, P (faulted c w s)) (hacts : Acts s i t → P t) : P t := by
  cases exec_does h with
  | reset => exact hreset rfl
  | rdsr r reg _ => exact hrdsr r _ rfl
  | dropped => exact hs
  | faults _ c => exact hfault c _
  | acts _ _ _ _ ha => exact hacts ha

theorem does_hasTb {s t : State} {i : Instr} (hd : Does s i t) : t.hasTb = s.hasTb := by
  cases hd with
  | reset | rdsr | dropped | faults => rfl
  | acts _ _ _ _ ha => cases ha <;> simp

section
variable {s t : State} {i : Instr} (ha : Acts s i t)
include ha

theorem acts_ct (hassign : i ≠ .assign) (hctclr : i ≠ .ctclr) (hctset : ∀ sym, i ≠ .ctset sym) : t.ct = s.ct := by
  cases ha
  case assign => exact absurd rfl hassign
  case ctclr => exact absurd rfl hctclr
  case ctset sym _ => exact absurd rfl (hctset sym)
  all_goals simp

theorem acts_path (hassign : i ≠ .assign) (hpclr : i ≠ .pclr) (hpbit : ∀ b, i ≠ .pbit b)
    (hctset : ∀ sym, i ≠ .ctset sym) : t.path = s.path := by
  cases ha
  case assign => exact absurd rfl hassign
  case pclr => exact absurd rfl hpclr
  case pbit b _ => exact absurd rfl (hpbit b)
  case ctset sym _ => exact absurd rfl (hctset sym)
  all_goals simp

/-- Only the packer's commands touch the open stream and `OUT`. -/
theorem acts_stream (henc : ∀ sym, i ≠ .enc sym) (hpkbit : ∀ b, i ≠ .pkbit b) (hflush : i ≠ .flush) :
    t.acc = s.acc ∧ t.bitLen = s.bitLen ∧ t.out = s.out := by
  cases ha
  case enc sym _ _ => exact absurd rfl (henc sym)
  case pkbit b _ => exact absurd rfl (hpkbit b)
  case flush => exact absurd rfl hflush
  all_goals simp

theorem acts_lastLen (hflush : i ≠ .flush) : t.lastLen = s.lastLen := by
  cases ha
  case flush => exact absurd rfl hflush
  all_goals simp

/-- A command's own effect is no fault. -/
theorem acts_err : t.err = s.err ∧ t.errInfo = s.errInfo := by
  cases ha <;> simp

theorem acts_counts (hfclr : i ≠ .fclr) (hassign : i ≠ .assign) (htab : ∀ sym, i ≠ .tab sym) :
    t.ft = s.ft ∧ t.total = s.total ∧ t.nsyms = s.nsyms := by
  cases ha
  case fclr => exact absurd rfl hfclr
  case assign => exact absurd rfl hassign
  case tab sym _ => exact absurd rfl (htab sym)
  all_goals simp

theorem acts_tree (hfclr : i ≠ .fclr) (hassign : i ≠ .assign) (hbuild : i ≠ .build) :
    t.nodes = s.nodes ∧ t.pq = s.pq ∧ t.tree = s.tree ∧ t.root = s.root := by
  cases ha
  case fclr => exact absurd rfl hfclr
  case assign => exact absurd rfl hassign
  case build f _ => exact absurd rfl hbuild
  all_goals simp

theorem acts_rsp (hfget : ∀ sym, i ≠ .fget sym) (hctget : ∀ sym, i ≠ .ctget sym) : t.rsp = s.rsp := by
  cases ha
  case fget sym => exact absurd rfl (hfget sym)
  case ctget sym => exact absurd rfl (hctget sym)
  all_goals simp

end

/-! ### `STATUS` -/

/-- The four flags from bit 0, zeros above (spec/10_state.md R38). -/
theorem statusWord_getLsbD (s : State) (i : Nat) :
    (statusWord s).getLsbD i = [faultFlag s, treeFlag s, tbpFlag s, pendFlag s].getD i false := by
  simp only [statusWord, BitVec.getLsbD_append, BitVec.getLsbD_ofBool, BitVec.getLsbD_zero]
  match i with
  | 0 | 1 | 2 | 3 => simp
  | j + 4 => simp

end Sys2Proof.Machine

open Sys2Proof Sys2Proof.Machine

/-! ### The statements about the state -/

/-- Settles O53: each clause of R36 is kept by each operation, and a step is one of them. -/
theorem everyStepKeepsTheInvariant : Obligations.EveryStepKeepsTheInvariant := by
  intro s t hs h
  exact step_keeps (fun _ rest hs => inv_with_cmd hs rest) (fun s _ => inv_engineReset s)
    (fun w _ hs => inv_faulted hs _ w) (fun _ _ _ hs hd => does_inv hs hd) hs h

/-- Settles O52: `State.reset` is the reset state of the reference build. -/
theorem invariantHoldsAtReset : Obligations.InvariantHoldsAtReset :=
  ⟨inv_resetOf true, inv_resetOf false, inv_resetOf Config.referenceHasTb⟩

/-- Settles O54: no way a step can end writes `HAS_TB`. -/
theorem noStepChangesTheBuild : Obligations.NoStepChangesTheBuild := by
  intro s t h
  exact step_keeps (P := fun u => u.hasTb = s.hasTb) (fun _ _ hu => hu) (fun _ hu => hu) (fun _ _ hu => hu)
    (fun _ _ _ hu hd => (does_hasTb hd).trans hu) rfl h

/-- Settles O55: answering and faulting write neither, and the effects that do are the ones excluded. -/
theorem codeTableAndPathWriters : Obligations.CodeTableAndPathWriters := by
  intro i s t h hreset hassign hctset
  refine ⟨fun hctclr => ?_, fun hpclr hpbit => ?_⟩
  · exact exec_keeps (P := fun u => u.ct = s.ct) h (fun e => absurd e hreset) (fun _ _ _ => rfl) rfl (fun _ _ => rfl)
      fun ha => acts_ct ha hassign hctclr hctset
  · exact exec_keeps (P := fun u => u.path = s.path) h (fun e => absurd e hreset) (fun _ _ _ => rfl) rfl
      (fun _ _ => rfl) fun ha => acts_path ha hassign hpclr hpbit hctset

/-- Settles O56: a fault is entered from `ERR = 0`, and `faulted` is its whole effect. -/
theorem packerAndFaultRegisterWriters : Obligations.PackerAndFaultRegisterWriters := by
  intro i s t h hreset
  refine ⟨fun henc hpkbit hflush => ?_, fun hflush => ?_, ?_⟩
  · refine exec_keeps (P := fun u => u.acc = s.acc ∧ u.bitLen = s.bitLen) h (fun e => absurd e hreset)
      (fun _ _ _ => ⟨rfl, rfl⟩) ⟨rfl, rfl⟩ (fun _ _ => ⟨rfl, rfl⟩) fun ha => ?_
    obtain ⟨hacc, hbitLen, -⟩ := acts_stream ha henc hpkbit hflush
    exact ⟨hacc, hbitLen⟩
  · exact exec_keeps (P := fun u => u.lastLen = s.lastLen) h (fun e => absurd e hreset) (fun _ _ _ => rfl) rfl
      (fun _ _ => rfl) fun ha => acts_lastLen ha hflush
  · cases exec_does h with
    | reset => exact absurd rfl hreset
    | rdsr | dropped => exact .inl ⟨rfl, rfl⟩
    | faults _ c he => exact .inr ⟨c, he, rfl⟩
    | acts _ _ _ _ ha => exact .inl (acts_err ha)

/-- Settles O57, as O55 with the unit's variables in two groups. -/
theorem treeBuilderStateWriters : Obligations.TreeBuilderStateWriters := by
  intro i s t h hreset hfclr hassign
  refine ⟨fun htab => ?_, fun hbuild => ?_⟩
  · exact exec_keeps (P := fun u => u.ft = s.ft ∧ u.total = s.total ∧ u.nsyms = s.nsyms) h (fun e => absurd e hreset)
      (by simp) (by simp) (by simp) fun ha => acts_counts ha hfclr hassign htab
  · exact exec_keeps (P := fun u => u.nodes = s.nodes ∧ u.pq = s.pq ∧ u.tree = s.tree ∧ u.root = s.root) h
      (fun e => absurd e hreset) (by simp) (by simp) (by simp) fun ha => acts_tree ha hfclr hassign hbuild

/-- Settles O58: what was handed over and what waits stay, since the command carries over from the engine alone. -/
theorem streamsOnlyGrow : Obligations.StreamsOnlyGrow := by
  intro i s t h
  obtain ⟨u, -, -, hu⟩ := engineSeesOnlyItsStateAndTheWord i s
  rw [h] at hu
  injection hu with hu
  refine ⟨?_, ?_, ?_, fun henc hpkbit hflush => ?_, fun hrdsr hfget hctget => ?_⟩
  · exact ⟨u.out, by rw [hu]⟩
  · exact ⟨u.rsp, by rw [hu]⟩
  · rw [hu]
  · refine exec_keeps (P := fun u => u.out = s.out) h (fun _ => rfl) (fun _ _ _ => rfl) rfl (fun _ _ => rfl) fun ha => ?_
    obtain ⟨-, -, hout⟩ := acts_stream ha henc hpkbit hflush
    exact hout
  · exact exec_keeps (P := fun u => u.rsp = s.rsp) h (fun _ => rfl) (fun r _ e => absurd e (hrdsr r)) rfl
      (fun _ _ => rfl) fun ha => acts_rsp ha hfget hctget

/-- Settles O12: both are `engineReset`. -/
theorem resetLeavesTheTableOfValues : Obligations.ResetLeavesTheTableOfValues := by
  intro s rest
  exact ⟨engineReset { s with cmd := rest }, rfl, step_rst, by simp⟩

/-- Settles O13: the two tables by their lemmas, the rest by the definition of `State.resetOf`. -/
theorem stateResetHasTheTableOfValues : Obligations.StateResetHasTheTableOfValues :=
  ⟨codeAt_noCodes, countAt_noCounts, rfl, rfl, rfl, rfl, rfl, rfl, rfl, rfl, rfl, rfl, rfl, rfl, rfl, rfl, rfl, rfl⟩

/-- Settles O17, each bit read off the list of flags. -/
theorem statusBitsAreTheFlags : Obligations.StatusBitsAreTheFlags := by
  intro s
  have hpend : (statusWord s).getLsbD 3 = true ↔ s.acc ≠ [] := by rw [statusWord_getLsbD]; simp [pendFlag]
  refine ⟨?_, ?_, ?_, hpend, fun i hi => ?_, fun hacc => ?_⟩
  · rw [statusWord_getLsbD]; simp [faultFlag]
  · rw [statusWord_getLsbD]; simp [treeFlag]
  · rw [statusWord_getLsbD]; simp [tbpFlag]
  · rw [statusWord_getLsbD]; exact List.getD_eq_default _ _ hi
  · rw [hpend, ← hacc, ne_eq, ne_eq, List.length_eq_zero_iff]

end

section
/-! SUPPORT. What a command answers when its effect or its fault is known, the converse of `exec_does`; reads, the
length of the stream, and the weights of the forest `BUILD` makes. The statements of spec/20_memory.md follow. -/

namespace Sys2Proof.Machine

/-! ### From an effect or a fault to the answer -/

section
variable {s t : State} {i : Instr} (he : s.err = 0#8) (hw : i.wf s.hasTb = true)
include he hw

/-- An effect the command can have is the one it has: the guards of `Acts` are those of the pseudocode. -/
theorem exec_of_acts (ha : Acts s i t) : exec i s = .next t := by
  cases ha
  case tab sym h => exact (command_runs _ he hw).trans (if_neg (eq_maxCount_iff.not.mpr h))
  case build f hf => exact (execBuild_eq hf).trans (command_runs _ he hw)
  case pbit b h => exact (command_runs _ he hw).trans (if_neg h)
  case ctset sym h => exact (command_runs _ he hw).trans (if_neg (List.length_eq_zero_iff.not.mpr h))
  case enc sym h hl =>
    exact (command_runs _ he hw).trans
      ((if_neg (List.length_eq_zero_iff.not.mpr h)).trans (if_neg (Nat.not_lt.mpr hl)))
  case pkbit b h => exact (command_runs _ he hw).trans (if_neg (eq_maxCount_iff.not.mpr h))
  all_goals exact command_runs _ he hw

/-- A fault the command can have is the one it raises, on a build that has the command. -/
theorem exec_of_faults {c : FaultCode} (hf : Faults s i c) : exec i s = .next (faulted c (encode i) s) := by
  cases hf
  case illegalCommand h => simp [h] at hw
  case lookupMiss sym h => exact (command_runs _ he hw).trans (if_pos (List.length_eq_zero_iff.mpr h))
  case emptyCode sym h => exact (command_runs _ he hw).trans (if_pos (List.length_eq_zero_iff.mpr h))
  case codeTooLong b h => exact (command_runs _ he hw).trans (if_pos h)
  case countOverflow sym h => exact (command_runs _ he hw).trans (if_pos (eq_maxCount_iff.mpr h))
  case encOverflow sym h hl =>
    exact (command_runs _ he hw).trans ((if_neg (List.length_eq_zero_iff.not.mpr h)).trans (if_pos hl))
  case pkbitOverflow b h => exact (command_runs _ he hw).trans (if_pos (eq_maxCount_iff.mpr h))

end

theorem exec_rdsr {r : BitVec 8} {reg : StatusReg} (h : statusReg r = some reg) (s : State) :
    exec (.rdsr r) s = .next (emitRsp (be32 (statusValue s reg)) s) := by
  simp only [exec, execRdsr, h]

/-! ### Reads -/

/-- No status register shows the bytes already handed over. -/
theorem statusValue_with_rsp (s : State) (rsp : List Byte) (reg : StatusReg) :
    statusValue { s with rsp := rsp } reg = statusValue s reg := by
  cases reg <;> rfl

/-- A legal read sends the same bytes whatever was sent before it (spec/20_memory.md R72). -/
theorem exec_read {i : Instr} {s : State} (he : s.err = 0#8) (hw : i.wf s.hasTb = true)
    (hread : (∃ r, i = .rdsr r) ∨ (∃ sym, i = .fget sym) ∨ ∃ sym, i = .ctget sym) :
    ∃ bytes, ∀ rsp, exec i { s with rsp := rsp } = .next { s with rsp := rsp ++ bytes } := by
  rcases hread with ⟨r, rfl⟩ | ⟨sym, rfl⟩ | ⟨sym, rfl⟩
  · have hr : r.toNat ≤ 10 := of_decide_eq_true hw
    obtain ⟨reg, hreg⟩ := Option.isSome_iff_exists.mp ((statusReg_isSome_iff r).mpr hr)
    refine ⟨be32 (statusValue s reg), fun rsp => ?_⟩
    rw [exec_rdsr hreg, statusValue_with_rsp]
    rfl
  · exact ⟨be32 (countAt s.ft sym), fun rsp => exec_of_acts (s := { s with rsp := rsp }) he hw (.fget sym)⟩
  · exact ⟨BitVec.ofNat 8 (codeAt s.ct sym).length :: pack (codeAt s.ct sym),
      fun rsp => exec_of_acts (s := { s with rsp := rsp }) he hw (.ctget sym)⟩

/-! ### Sums that do not wrap -/

/-- A 32-bit addition of a number that fits is the addition of integers. -/
theorem toNat_add_ofNat {v : Word32} {n : Nat} (h : v.toNat + n ≤ 2 ^ 32 - 1) :
    (v + BitVec.ofNat 32 n).toNat = v.toNat + n := by
  rw [BitVec.toNat_add, BitVec.toNat_ofNat]
  omega

/-- Appending makes the stream longer by the bits appended, however many are pending (spec/44_bitpacker.md R220). -/
@[simp] theorem pkAppendAll_bitLen (c : BitString) (s : State) :
    (pkAppendAll c s).bitLen = s.bitLen + BitVec.ofNat 32 c.length := by
  induction c generalizing s with
  | nil => simp [pkAppendAll]
  | cons b c ih =>
    rw [pkAppendAll, ih, pkAppend_bitLen, List.length_cons, Nat.add_comm, BitVec.ofNat_add, BitVec.add_assoc]

/-! ### The weights of the forest -/

/-- The queued weights are at most `n` together, and no node weighs more than `n`. -/
structure WeighsAtMost (n : Nat) (f : Forest) : Prop where
  bound : ∀ j ∈ f.pq, j < f.nodes.length
  queued : queuedWeight f ≤ n
  node : ∀ i, (weightAt f.nodes i).toNat ≤ n

theorem weighsAtMost_allocate {n : Nat} {f : Forest} {node : Node} (hb : ∀ j ∈ f.pq, j < f.nodes.length)
    (hq : (nodeWeight node).toNat + queuedWeight f ≤ n) (hn : ∀ i, (weightAt f.nodes i).toNat ≤ n) :
    WeighsAtMost n (allocate node f) := by
  refine ⟨allocate_bound _ hb, (queuedWeight_allocate _ hb).trans_le hq, fun i => ?_⟩
  rw [allocate_nodes]
  rcases Nat.lt_trichotomy i f.nodes.length with hi | rfl | hi
  · rw [weightAt_append _ hi]
    exact hn i
  · rw [weightAt_append_self]
    omega
  · have hnone : (f.nodes ++ [node])[i]? = none := by simpa using hi
    simp [weightAt, hnone]

/-- A leaf adds its count to what is queued. -/
theorem weighsAtMost_leaf {n : Nat} {f : Forest} (sym : Symbol) (w : Word32) (h : WeighsAtMost n f) :
    WeighsAtMost (n + w.toNat) (allocate (.leaf sym w) f) := by
  have hq := h.queued
  refine weighsAtMost_allocate h.bound ?_ fun i => Nat.le_add_right_of_le (h.node i)
  rw [nodeWeight]
  omega

/-- A merge queues no more than the two weights it takes from the queue. -/
theorem weighsAtMost_merge {n : Nat} {f : Forest} {a b : Nat} {rest : List Nat} (hpq : f.pq = a :: b :: rest)
    (h : WeighsAtMost n f) :
    WeighsAtMost n (allocate (.internal (weightAt f.nodes a + weightAt f.nodes b) a b) { f with pq := rest }) := by
  have hb : ∀ j ∈ rest, j < f.nodes.length := fun j hj => h.bound j (by simp [hpq, hj])
  have htake : queuedWeight f =
      (weightAt f.nodes a).toNat + (weightAt f.nodes b).toNat + queuedWeight { f with pq := rest } := by
    simp [queuedWeight, hpq, Nat.add_assoc]
  have hsum : (weightAt f.nodes a + weightAt f.nodes b).toNat ≤
      (weightAt f.nodes a).toNat + (weightAt f.nodes b).toNat := (BitVec.toNat_add _ _).trans_le (Nat.mod_le _ _)
  have hq := h.queued
  refine weighsAtMost_allocate hb ?_ h.node
  rw [nodeWeight]
  omega

/-- No node of the forest weighs more than all counts together (spec/20_memory.md R77). -/
theorem buildForest_weight_le {ft : Vector Word32 256} {f : Forest} (h : buildForest ft = some f) (i : Nat) :
    (weightAt f.nodes i).toNat ≤ countSum ft := by
  obtain ⟨f', hf', hw, -⟩ := buildForest_induct (ft := ft)
    (fun syms f => WeighsAtMost (syms.map fun x => (countAt ft x).toNat).sum f)
    ⟨by simp, by simp [queuedWeight], by simp [weightAt]⟩
    (fun done f sym _ hw => by simpa using weighsAtMost_leaf sym (countAt ft sym) hw)
    (fun _ _ _ _ hpq hw => weighsAtMost_merge hpq hw)
  obtain rfl := Option.some.inj (h.symm.trans hf')
  exact (hw.node i).trans_eq (sum_observed ft)

/-! ### Counting -/

/-- No count is greater than `TOTAL` (spec/20_memory.md R77). -/
theorem countAt_le_total {s : State} (h : s.Inv) (x : Symbol) : (countAt s.ft x).toNat ≤ s.total.toNat :=
  (countAt_le_countSum s.ft x).trans_eq h.counts.1

end Sys2Proof.Machine

open Sys2Proof Sys2Proof.Machine

/-! ### The statements about the memory -/

/-- Settles O59: the bytes a read sends do not depend on those sent before it. -/
theorem readsHaveNoSideEffect : Obligations.ReadsHaveNoSideEffect := by
  intro i s he hw hread
  obtain ⟨bytes, h⟩ := exec_read he hw hread
  exact ⟨bytes, h s.rsp, h (s.rsp ++ bytes)⟩

/-- Settles O38: at the limit the fault, below it the effect, whose addition then does not wrap. -/
theorem bitlenNeverWraps : Obligations.BitlenNeverWraps := by
  intro s he
  refine ⟨fun b h => ?_, fun b h => ?_, fun sym hne h => ?_, fun sym hne h => ?_⟩
  · exact exec_of_faults he rfl (.pkbitOverflow b h)
  · have hlt : s.bitLen.toNat < 2 ^ 32 := s.bitLen.isLt
    refine ⟨_, exec_of_acts he rfl (.pkbit b h), by rw [pkAppend_err, he], ?_⟩
    rw [pkAppend_bitLen]
    exact toNat_add_ofNat (by omega)
  · exact exec_of_faults he rfl (.encOverflow sym hne h)
  · refine ⟨_, exec_of_acts he rfl (.enc sym hne h), by rw [pkAppendAll_err, he], ?_⟩
    rw [pkAppendAll_bitLen]
    exact toNat_add_ofNat h

/-- Settles O25: a count is at most `TOTAL`, so below the limit neither wraps, and `TOTAL` is the sum of all counts,
which bounds the weights. -/
theorem countsAndWeightsNeverWrap : Obligations.CountsAndWeightsNeverWrap := by
  intro s hs he htb
  refine ⟨fun sym ht => ?_, ?_⟩
  · have hlt : s.total.toNat < 2 ^ 32 := s.total.isLt
    have hle := countAt_le_total hs sym
    refine ⟨_, exec_of_acts he htb (.tab sym ht), ?_, ?_, countAt_le_total (inv_countSymbol hs sym htb ht)⟩
    · rw [countSymbol_total]
      exact toNat_add_ofNat (by omega)
    · rw [countSymbol_ft, countAt_setCount, if_pos rfl]
      exact toNat_add_ofNat (by omega)
  · obtain ⟨f, hf, -⟩ := buildForest_spec s.ft
    obtain ⟨hsum, -⟩ := hs.counts
    refine ⟨_, exec_of_acts he htb (.build f hf), ?_, fun i => ?_⟩
    · rw [holdTree_nodes]
      exact buildForest_weightsExact hf (hsum ▸ s.total.isLt)
    · rw [holdTree_nodes, ← hsum]
      exact buildForest_weight_le hf i

end

section
/-! SUPPORT. The encoder and the decoder as inverses, which values of `arg` each opcode leaves legal, and what a command
does on a build that has no word for it. The statements of spec/30_encoding.md follow. -/

namespace Sys2Proof

/-! ### Words and their fields -/

/-- A word is that of a command when its fields are the command's (spec/30_encoding.md R90). -/
theorem eq_encode_of_fields {w : Word16} {i : Instr} (hop : opOf i = opField w) (harg : argOf i = argField w) :
    w = encode i := by
  rw [encode, hop, harg, mkWord_fields]

theorem decode_mkWord (hasTb : Bool) (op arg : BitVec 8) :
    decode hasTb (mkWord op arg) = decodeFields hasTb op arg := by simp [decode]

/-! ### From a command's word to the command -/

theorem decode_encode {hasTb : Bool} {i : Instr} (hw : i.wf hasTb = true) : decode hasTb (encode i) = .command i := by
  cases i with
  | nop => exact Laws.RoundTrip.nop hasTb hw
  | reset => exact Laws.RoundTrip.reset hasTb hw
  | rdsr r => exact Laws.RoundTrip.rdsr r hasTb hw
  | fclr => exact Laws.RoundTrip.fclr hasTb hw
  | tab sym => exact Laws.RoundTrip.tab sym hasTb hw
  | fget sym => exact Laws.RoundTrip.fget sym hasTb hw
  | build => exact Laws.RoundTrip.build hasTb hw
  | assign => exact Laws.RoundTrip.assign hasTb hw
  | ctclr => exact Laws.RoundTrip.ctclr hasTb hw
  | pclr => exact Laws.RoundTrip.pclr hasTb hw
  | pbit b => exact Laws.RoundTrip.pbit b hasTb hw
  | ctset sym => exact Laws.RoundTrip.ctset sym hasTb hw
  | ctget sym => exact Laws.RoundTrip.ctget sym hasTb hw
  | enc sym => exact Laws.RoundTrip.enc sym hasTb hw
  | pkbit b => exact Laws.RoundTrip.pkbit b hasTb hw
  | flush => exact Laws.RoundTrip.flush hasTb hw

/-- A command that only the TB unit gives a build has an illegal word without it (spec/30_encoding.md R98 clause 5). -/
theorem decode_encode_noTreeBuilder {i : Instr} (hwith : i.wf true = true) (hwithout : i.wf false = false) :
    decode false (encode i) = .illegal .noTreeBuilder := by
  rw [decode_encode_fields]
  cases i
  case fclr | tab | fget | build | assign => rfl
  case rdsr => exact absurd (hwith.symm.trans hwithout) (by decide)
  all_goals cases hwithout

/-! ### From a command back to the word -/

/-- The answer `d` is a command only if the build has it and `op` and `arg` are its fields. -/
def ReadsOnly (hasTb : Bool) (op arg : BitVec 8) (d : Decoded) : Prop :=
  ∀ i, d = .command i → i.wf hasTb = true ∧ opOf i = op ∧ argOf i = arg

section
variable {hasTb : Bool} {op arg : BitVec 8}

theorem readsOnly_formatZ {i : Instr} (hw : i.wf hasTb = true) (hop : opOf i = op) (harg : argOf i = 0#8) :
    ReadsOnly hasTb op arg (formatZ arg i) := by
  intro j hj
  obtain ⟨rfl, rfl⟩ := formatZ_eq_command.mp hj
  exact ⟨hw, hop, harg⟩

theorem readsOnly_formatS {i : Symbol → Instr} (hw : (i arg).wf hasTb = true) (hop : opOf (i arg) = op)
    (harg : argOf (i arg) = arg) : ReadsOnly hasTb op arg (formatS arg i) := by
  intro j hj
  obtain rfl := formatS_eq_command.mp hj
  exact ⟨hw, hop, harg⟩

theorem readsOnly_formatB {i : Bool → Instr} (hw : ∀ b, (i b).wf hasTb = true) (hop : ∀ b, opOf (i b) = op)
    (harg : ∀ b, argOf (i b) = bitArg b) : ReadsOnly hasTb op arg (formatB arg i) := by
  intro j hj
  obtain ⟨hle, rfl⟩ := formatB_eq_command.mp hj
  exact ⟨hw _, hop _, (harg _).trans (bitArg_getLsbD arg hle)⟩

theorem readsOnly_formatR_rdsr : ReadsOnly hasTb 0x02#8 arg (formatR arg .rdsr) := by
  intro j hj
  obtain ⟨hle, rfl⟩ := formatR_eq_command.mp hj
  exact ⟨decide_eq_true hle, rfl, rfl⟩

theorem readsOnly_ofTbUnit {d : Decoded} (h : hasTb = true → ReadsOnly hasTb op arg d) :
    ReadsOnly hasTb op arg (ofTbUnit hasTb d) := by
  intro j hj
  obtain ⟨htb, hd⟩ := ofTbUnit_eq_command.mp hj
  exact h htb j hd

end

/-- Each row of the opcode map reads only words of its own command (spec/30_encoding.md R96). The cases are the rows of
`decodeFields` in their order, gathered by format. -/
theorem decodeFields_readsOnly (hasTb : Bool) (op arg : BitVec 8) :
    ReadsOnly hasTb op arg (decodeFields hasTb op arg) := by
  unfold decodeFields
  split
  case h_1 | h_2 | h_9 | h_10 | h_16 => exact readsOnly_formatZ rfl rfl rfl
  case h_3 => exact readsOnly_formatR_rdsr
  case h_4 | h_7 | h_8 => exact readsOnly_ofTbUnit fun htb => readsOnly_formatZ htb rfl rfl
  case h_5 | h_6 => exact readsOnly_ofTbUnit fun htb => readsOnly_formatS htb rfl rfl
  case h_11 | h_15 => exact readsOnly_formatB (fun _ => rfl) (fun _ => rfl) fun _ => rfl
  case h_12 | h_13 | h_14 => exact readsOnly_formatS rfl rfl rfl
  case h_17 => exact fun _ hj => nomatch hj

theorem decode_eq_command_iff {hasTb : Bool} {w : Word16} {i : Instr} :
    decode hasTb w = .command i ↔ i.wf hasTb = true ∧ w = encode i := by
  constructor
  · intro h
    obtain ⟨hw, hop, harg⟩ := decodeFields_readsOnly hasTb (opField w) (argField w) i h
    exact ⟨hw, eq_encode_of_fields hop harg⟩
  · rintro ⟨hw, rfl⟩
    exact decode_encode hw

/-! ### Legal words -/

theorem isCommand_eq_false_iff {d : Decoded} : isCommand d = false ↔ ∃ why, d = .illegal why := by
  cases d <;> simp [isCommand]

@[simp] theorem isCommand_formatZ (arg : BitVec 8) (i : Instr) : isCommand (formatZ arg i) = decide (arg = 0#8) := by
  unfold formatZ; split <;> simp [*, isCommand]

@[simp] theorem isCommand_formatS (arg : BitVec 8) (i : Symbol → Instr) : isCommand (formatS arg i) = true := rfl

@[simp] theorem isCommand_formatB (arg : BitVec 8) (i : Bool → Instr) :
    isCommand (formatB arg i) = decide (arg.toNat ≤ 1) := by
  unfold formatB; split <;> simp [*, isCommand]

@[simp] theorem isCommand_formatR (arg : BitVec 8) (i : BitVec 8 → Instr) :
    isCommand (formatR arg i) = decide (arg.toNat ≤ Config.lastStatusReg) := by
  unfold formatR; split <;> simp [*, isCommand]

@[simp] theorem isCommand_ofTbUnit (hasTb : Bool) (d : Decoded) :
    isCommand (ofTbUnit hasTb d) = (hasTb && isCommand d) := by
  cases d <;> cases hasTb <;> rfl

/-- The word of a command is legal on exactly the builds that have the command. -/
theorem isCommand_decode_encode (hasTb : Bool) (i : Instr) : isCommand (decode hasTb (encode i)) = i.wf hasTb := by
  rw [decode_encode_fields]
  cases i
  case rdsr r => exact isCommand_formatR r .rdsr
  case fclr | tab | fget | build | assign => cases hasTb <;> rfl
  case pbit b | pkbit b => cases b <;> rfl
  all_goals rfl

/-- How many values of `arg` are legal behind `op`: one in format Z, all in format S, two in format B, eleven in
format R, and none behind the opcodes of the TB unit without it (spec/30_encoding.md R91 to R97). -/
def legalArgs (hasTb : Bool) (op : BitVec 8) : Nat :=
  match op with
  | 0x00#8 | 0x01#8 | 0x21#8 | 0x22#8 | 0x41#8 => 1
  | 0x10#8 | 0x13#8 | 0x20#8 => if hasTb then 1 else 0
  | 0x11#8 | 0x12#8 => if hasTb then 256 else 0
  | 0x24#8 | 0x25#8 | 0x30#8 => 256
  | 0x23#8 | 0x40#8 => 2
  | 0x02#8 => 11
  | _ => 0

theorem countP_formatZ (i : Instr) :
    ((List.range 256).countP fun arg => isCommand (formatZ (BitVec.ofNat 8 arg) i)) = 1 := by
  simp only [isCommand_formatZ]
  decide +kernel

theorem countP_formatS (i : Symbol → Instr) :
    ((List.range 256).countP fun arg => isCommand (formatS (BitVec.ofNat 8 arg) i)) = 256 := by
  simp

theorem countP_formatB (i : Bool → Instr) :
    ((List.range 256).countP fun arg => isCommand (formatB (BitVec.ofNat 8 arg) i)) = 2 := by
  simp only [isCommand_formatB]
  decide +kernel

theorem countP_formatR (i : BitVec 8 → Instr) :
    ((List.range 256).countP fun arg => isCommand (formatR (BitVec.ofNat 8 arg) i)) = 11 := by
  simp only [isCommand_formatR]
  decide +kernel

theorem countP_ofTbUnit (hasTb : Bool) (d : Nat → Decoded) :
    ((List.range 256).countP fun arg => isCommand (ofTbUnit hasTb (d arg))) =
      if hasTb then (List.range 256).countP fun arg => isCommand (d arg) else 0 := by
  cases hasTb <;> simp

theorem countP_decodeFields (hasTb : Bool) (op : BitVec 8) :
    ((List.range 256).countP fun arg => isCommand (decodeFields hasTb op (BitVec.ofNat 8 arg))) =
      legalArgs hasTb op := by
  unfold legalArgs
  split
  case h_1 | h_2 | h_3 | h_4 | h_5 => exact countP_formatZ _
  case h_6 | h_7 | h_8 => exact (countP_ofTbUnit hasTb _).trans (congrArg (if hasTb then · else 0) (countP_formatZ _))
  case h_9 | h_10 => exact (countP_ofTbUnit hasTb _).trans (congrArg (if hasTb then · else 0) (countP_formatS _))
  case h_11 | h_12 | h_13 => exact countP_formatS _
  case h_14 | h_15 => exact countP_formatB _
  case h_16 => exact countP_formatR _
  case h_17 => simp [decodeFields, isCommand, *]

/-- The five clauses of spec/30_encoding.md R98 on the fields of a word. -/
theorem decodeFields_illegal_iff (hasTb : Bool) (op arg : BitVec 8) :
    isCommand (decodeFields hasTb op arg) = false ↔
      (op ∉ [0x00#8, 0x01#8, 0x02#8, 0x10#8, 0x11#8, 0x12#8, 0x13#8, 0x20#8, 0x21#8, 0x22#8, 0x23#8,
          0x24#8, 0x25#8, 0x30#8, 0x40#8, 0x41#8]) ∨
      (op ∈ [0x00#8, 0x01#8, 0x10#8, 0x13#8, 0x20#8, 0x21#8, 0x22#8, 0x41#8] ∧ arg ≠ 0x00#8) ∨
      (op ∈ [0x23#8, 0x40#8] ∧ 2 ≤ arg.toNat) ∨
      (op = 0x02#8 ∧ 11 ≤ arg.toNat) ∨
      (op ∈ [0x10#8, 0x11#8, 0x12#8, 0x13#8, 0x20#8] ∧ hasTb = false) := by
  unfold decodeFields
  split
  case h_1 | h_2 | h_9 | h_10 | h_16 => simp
  case h_3 | h_11 | h_15 => simp [Nat.succ_le_iff]
  case h_4 | h_7 | h_8 => cases hasTb <;> simp
  case h_5 | h_6 | h_12 | h_13 | h_14 => simp
  case h_17 =>
    -- `split` gives each inequality as `op = _ → False`
    simp only [imp_false] at *
    simp [isCommand, *]

end Sys2Proof

namespace Sys2Proof.Machine

/-! ### A command the build has no word for -/

theorem command_of_not_wf {i : Instr} {s : State} (body : Result) (hw : i.wf s.hasTb = false) :
    command i s body = illegalWord (encode i) s := by
  by_cases he : s.err = 0#8 <;> simp [command, illegalWord, he, hw]

/-- A command the build has no legal word for acts as its illegal word (spec/60_exceptions.md R241; log 11). -/
theorem exec_of_not_wf {i : Instr} {s : State} (hw : i.wf s.hasTb = false) :
    exec i s = illegalWord (encode i) s := by
  cases i
  case rdsr r =>
    have hr : 10 < r.toNat := Nat.lt_of_not_le (of_decide_eq_false hw)
    simp only [exec, execRdsr, statusReg_none hr]
  case fclr | tab | fget | build | assign => exact command_of_not_wf _ hw
  all_goals cases hw

/-- A command's own word is executed as the command, legal on the build or not. -/
theorem execWord_encode (i : Instr) (s : State) : execWord (encode i) s = exec i s := by
  cases hw : i.wf s.hasTb
  · obtain ⟨why, hwhy⟩ := isCommand_eq_false_iff.mp ((isCommand_decode_encode s.hasTb i).trans hw)
    rw [execWord_illegal hwhy, exec_of_not_wf hw]
  · exact execWord_command (decode_encode hw)

end Sys2Proof.Machine

open Sys2Proof Sys2Proof.Machine

/-! ### The statements about the encoding -/

/-- Settles O1: a command's word decodes to it, and each row of the opcode map reads no other words. -/
theorem decodeAndEncodeAgree : Obligations.DecodeAndEncodeAgree :=
  fun _ _ _ => decode_eq_command_iff

/-- Settles O2: the clauses are read off the rows of the opcode map, the effect off `illegalWord`. -/
theorem illegalWordsAreTheFiveClauses : Obligations.IllegalWordsAreTheFiveClauses := by
  intro hasTb w
  refine ⟨isCommand_eq_false_iff.symm.trans (decodeFields_illegal_iff hasTb (opField w) (argField w)), ?_⟩
  rintro s rfl ⟨why, hwhy⟩
  rw [execWord_illegal hwhy]
  exact ⟨illegalWord_faults, illegalWord_dropped⟩

/-- Settles O7: the step takes the word placed in front, and a command's word is executed as the command. -/
theorem stepOfAPlacedCommandIsExec : Obligations.StepOfAPlacedCommandIsExec := by
  intro i s
  rw [step_word (placeWord_cmd (encode i) s)]
  exact execWord_encode i s

/-- Settles O3: the legal words behind each opcode, summed over the opcodes. -/
theorem legalWordsAreCounted : Obligations.LegalWordsAreCounted := by
  unfold Obligations.LegalWordsAreCounted
  simp only [decode_mkWord, countP_decodeFields]
  decide +kernel

/-- Settles O4: the words are those of the five commands that need the unit, and bit 2 of `STATUS` is `TBP`. -/
theorem treeBuilderWordsNeedTheUnit : Obligations.TreeBuilderWordsNeedTheUnit := by
  refine ⟨fun ss w hw => ?_, fun s => ⟨?_, exec_rdsr (reg := .status) rfl s⟩⟩
  · have hi : ∃ i ∈ [Instr.fclr, .tab ss, .fget ss, .build, .assign], encode i = w := List.mem_map.mp hw
    obtain ⟨i, hi, rfl⟩ := hi
    obtain ⟨hwith, hwithout⟩ : i.wf true = true ∧ i.wf false = false := by
      simp only [List.mem_cons, List.not_mem_nil, or_false] at hi
      rcases hi with rfl | rfl | rfl | rfl | rfl <;> exact ⟨rfl, rfl⟩
    exact ⟨decode_encode_noTreeBuilder hwith hwithout, i, decode_encode hwith⟩
  · rw [statusWord_getLsbD]
    rfl

/-- Settles O5: each word is computed. -/
theorem specWordsDecodeAsWritten : Obligations.SpecWordsDecodeAsWritten := by
  unfold Obligations.SpecWordsDecodeAsWritten
  decide

end

section
/-! SUPPORT. What the three control commands answer in every state: `NOP`, the illegal words behind a format Z opcode,
and the value each `RDSR` sends. The statements of spec/40_control.md follow. -/

namespace Sys2Proof

/-- Behind an opcode of format Z a non-zero operand is illegal (spec/30_encoding.md R98 clause 2). -/
theorem decode_formatZ_illegal {hasTb : Bool} {op arg : BitVec 8} {i : Instr}
    (hop : decodeFields hasTb op arg = formatZ arg i) (h : arg ≠ 0#8) :
    decode hasTb (mkWord op arg) = .illegal .argNotZero :=
  (decode_mkWord hasTb op arg).trans (hop.trans (if_neg h))

end Sys2Proof

namespace Sys2Proof.Machine

/-- Dropping `NOP` in the fault state is the same as executing it (spec/40_control.md R120). -/
theorem exec_nop (s : State) : exec .nop s = .next s := by
  by_cases he : s.err = 0#8
  · exact command_runs _ he rfl
  · exact command_dropped _ he

/-- A number held in an `n`-bit register reads modulo `2 ^ n` (logs 7, 8). -/
theorem zeroExtend_ofNat (n k : Nat) : (BitVec.ofNat n k).zeroExtend 32 = BitVec.ofNat 32 (k % 2 ^ n) := by
  rw [← BitVec.toNat_ofNat, BitVec.ofNat_toNat]

/-- `RDSR` of an assigned register sends the bytes of its value and changes nothing else. -/
theorem exec_rdsr_sends {r : BitVec 8} {reg : StatusReg} {s : State} {v : Word32} (hr : statusReg r = some reg)
    (hv : statusValue s reg = v) : exec (.rdsr r) s = .next { s with rsp := s.rsp ++ be32 v } :=
  hv ▸ exec_rdsr hr s

/-- The word of a reserved register number acts as an illegal word (spec/40_control.md R122). -/
theorem execWord_rdsr_reserved {r : BitVec 8} (hr : 11 ≤ r.toNat) (s : State) :
    execWord (mkWord 0x02#8 r) s = illegalWord (mkWord 0x02#8 r) s :=
  (execWord_encode (.rdsr r) s).trans (exec_of_not_wf (decide_eq_false (Nat.not_le.mpr hr)))

end Sys2Proof.Machine

open Sys2Proof Sys2Proof.Machine

/-! ### The statements about the control commands -/

/-- Settles O14: `NOP` answers its own state, and format Z leaves its opcode one word. -/
theorem nopDoesNothing : Obligations.NopDoesNothing :=
  ⟨exec_nop, fun _ => decode_encode (i := .nop) rfl, fun _ _ hx => ⟨_, decode_formatZ_illegal (i := .nop) rfl hx⟩⟩

/-- Settles O15: the answer is `engineReset`, and format Z leaves its opcode one word. -/
theorem resetCommandResetsTheEngine : Obligations.ResetCommandResetsTheEngine := by
  have hillegal (hasTb : Bool) {x : BitVec 8} (hx : x ≠ 0x00#8) :
      decode hasTb (mkWord 0x01#8 x) = .illegal .argNotZero := decode_formatZ_illegal (i := .reset) rfl hx
  refine ⟨fun s => ⟨engineReset s, rfl, rfl, ?_⟩, fun _ => decode_encode (i := .reset) rfl, fun s x hx he => ?_,
    fun hasTb x hx => ⟨_, hillegal hasTb hx⟩⟩
  · simp [faultFlag, treeFlag, pendFlag]
  · rw [execWord_illegal (hillegal s.hasTb hx), illegalWord_dropped he]

/-- Settles O16: register by register the value is the field zero-extended; a reserved number gives an illegal word. -/
theorem rdsrSendsTheRegister : Obligations.RdsrSendsTheRegister := by
  refine ⟨fun _ => rfl, fun s => ⟨?status, ?err, ?errInfo, ?bitLen, ?lastLen, ?plen, ?total, ?nsyms, ?ncnt, ?qsize,
    ?root, fun r hr _ => decode_encode (i := .rdsr r) (decide_eq_true hr), fun r hr => ?reserved⟩⟩
  case status | bitLen | lastLen | total => exact exec_rdsr_sends rfl rfl
  case err | errInfo => exact exec_rdsr_sends rfl (BitVec.ofNat_toNat 32 _).symm
  case plen => exact exec_rdsr_sends rfl (zeroExtend_ofNat 8 _)
  case nsyms => exact exec_rdsr_sends rfl (congrArg (tbView s) (BitVec.ofNat_toNat 32 _).symm)
  case ncnt | qsize | root => exact exec_rdsr_sends rfl (congrArg (tbView s) (zeroExtend_ofNat 9 _))
  case reserved =>
    rw [execWord_rdsr_reserved hr]
    exact ⟨illegalWord_faults, illegalWord_dropped⟩

end

section
/-! SUPPORT. The tree `BUILD` makes, merge by merge: the leaves stand first, the queue holds the nodes that are no child
yet, and a merge takes the two in front; so every node gets one parent at most. The statements of spec/41_tree_builder.md
follow. -/

namespace Sys2Proof.Machine

/-! ### The queue -/

/-- One insertion: where it cuts the queue, and that the order of the weights is kept (spec/41_tree_builder.md R143). -/
theorem pqInsert_splits {n : Nat} {f : Forest}
    (h : f.pq.Pairwise fun a b => (weightAt f.nodes a).toNat ≤ (weightAt f.nodes b).toNat) :
    ∃ before after, f.pq = before ++ after ∧ (pqInsert n f).pq = before ++ n :: after ∧
      (∀ a ∈ before, (weightAt f.nodes a).toNat ≤ (weightAt f.nodes n).toNat) ∧
      ∀ a ∈ after, (weightAt f.nodes n).toNat < (weightAt f.nodes a).toNat := by
  obtain ⟨hbefore, hafter⟩ :=
    countP_splits_sorted (fun j => (weightAt f.nodes j).toNat) (weightAt f.nodes n).toNat f.pq h
  exact ⟨_, _, (List.take_append_drop (pqPosition n f) f.pq).symm, rfl, hbefore, hafter⟩

/-- Putting an item between the lighter or equal and the heavier ones keeps a list in order. -/
theorem pairwise_insert {key : Nat → Nat} {n : Nat} {before after : List Nat}
    (h : (before ++ after).Pairwise fun a b => key a ≤ key b) (hbefore : ∀ a ∈ before, key a ≤ key n)
    (hafter : ∀ a ∈ after, key n < key a) : (before ++ n :: after).Pairwise fun a b => key a ≤ key b := by
  obtain ⟨h₁, h₂, hcross⟩ := List.pairwise_append.mp h
  refine List.pairwise_append.mpr ⟨h₁, List.pairwise_cons.mpr ⟨fun a ha => (hafter a ha).le, h₂⟩, fun a ha b hb => ?_⟩
  rcases List.mem_cons.mp hb with rfl | hb
  · exact hbefore a ha
  · exact hcross a ha b hb

/-- A merge needs two items. -/
theorem mergeOnce_of_length_lt_two {f : Forest} (h : f.pq.length < 2) : mergeOnce f = none := by
  match hq : f.pq with
  | [] => simp [mergeOnce, pqExtractMin, hq]
  | [a] => simp [mergeOnce, pqExtractMin, hq]
  | a :: b :: rest => simp [hq] at h

/-- Queue order is an order of the weights. -/
theorem QueuedBefore.weight_le {nodes : List Node} {a b : Nat} (h : QueuedBefore nodes a b) :
    (weightAt nodes a).toNat ≤ (weightAt nodes b).toNat :=
  h.elim Nat.le_of_lt fun hw => (congrArg BitVec.toNat hw.1).le

theorem queuedBefore_append {nodes : List Node} {a b : Nat} (more : List Node) (ha : a < nodes.length)
    (hb : b < nodes.length) : QueuedBefore (nodes ++ more) a b ↔ QueuedBefore nodes a b := by
  rw [QueuedBefore, weightAt_append _ ha, weightAt_append _ hb]

/-! ### The children of a node -/

/-- Node `i` is internal and `j` is one of its children. -/
def HasChild (nodes : List Node) (i j : Nat) : Prop :=
  ∃ w l r, nodes[i]? = some (Node.internal w l r) ∧ (l = j ∨ r = j)

theorem hasChild_left {nodes : List Node} {i l r : Nat} {w : Word32} (h : nodes[i]? = some (Node.internal w l r)) :
    HasChild nodes i l := ⟨w, l, r, h, .inl rfl⟩

theorem hasChild_right {nodes : List Node} {i l r : Nat} {w : Word32} (h : nodes[i]? = some (Node.internal w l r)) :
    HasChild nodes i r := ⟨w, l, r, h, .inr rfl⟩

theorem HasChild.lt {nodes : List Node} {i j : Nat} (ha : Acyclic nodes) (h : HasChild nodes i j) :
    j < i ∧ i < nodes.length := by
  obtain ⟨w, l, r, hi, rfl | rfl⟩ := h
  · exact ⟨(ha i w _ r hi).1, (List.getElem?_eq_some_iff.mp hi).1⟩
  · exact ⟨(ha i w l _ hi).2, (List.getElem?_eq_some_iff.mp hi).1⟩

/-- A merge adds two children and takes none away. -/
theorem hasChild_append_internal {nodes : List Node} {w : Word32} {a b i j : Nat} :
    HasChild (nodes ++ [.internal w a b]) i j ↔
      HasChild nodes i j ∨ (i = nodes.length ∧ (a = j ∨ b = j)) := by
  constructor
  · rintro ⟨w', l, r, hi, hj⟩
    rcases getElem?_allocate_cases hi with ⟨-, hi⟩ | ⟨rfl, hnew⟩
    · exact .inl ⟨w', l, r, hi, hj⟩
    · injection hnew with _ hl hr
      exact .inr ⟨rfl, hl ▸ hr ▸ hj⟩
  · rintro (⟨w', l, r, hi, hj⟩ | ⟨rfl, hj⟩)
    · exact ⟨w', l, r, by rw [List.getElem?_append_left (List.getElem?_eq_some_iff.mp hi).1, hi], hj⟩
    · exact ⟨w, a, b, by simp, hj⟩

/-! ### The forest while it is merged -/

/-- The forest after the merge of `a` and `b`, `rest` being the queue behind them. -/
def merged (f : Forest) (a b : Nat) (rest : List Nat) : Forest :=
  allocate (.internal (weightAt f.nodes a + weightAt f.nodes b) a b) { f with pq := rest }

theorem mergeOnce_eq_merged {f : Forest} {a b : Nat} {rest : List Nat} (hq : f.pq = a :: b :: rest) :
    mergeOnce f = some (merged f a b rest) := mergeOnce_cons hq

theorem merged_nodes (f : Forest) (a b : Nat) (rest : List Nat) :
    (merged f a b rest).nodes = f.nodes ++ [.internal (weightAt f.nodes a + weightAt f.nodes b) a b] := rfl

theorem mem_merged {f : Forest} {a b j : Nat} {rest : List Nat} :
    j ∈ (merged f a b rest).pq ↔ j = f.nodes.length ∨ j ∈ rest := mem_allocate

/-- The leaf of an observed symbol (spec/41_tree_builder.md R148 step 1). -/
def leafOf (ft : Vector Word32 256) (sym : Symbol) : Node := .leaf sym (countAt ft sym)

/-- When node `i` was made of `l` and `r`, these were the first two in the queue, which held the earlier nodes that were
no child yet (spec/41_tree_builder.md R144, R148 step 2). -/
def TookFront (nodes : List Node) (i l r : Nat) : Prop :=
  QueuedBefore nodes l r ∧
    ∀ j, j < i → j ≠ l → j ≠ r → (∀ k, k < i → ¬ HasChild nodes k j) → QueuedBefore nodes r j

/-- What holds of the nodes and the queue after step 1 of `BUILD` and after every merge. -/
structure MergeOk (ft : Vector Word32 256) (f : Forest) : Prop extends ForestOk ft (observed ft) f where
  leaves : (observed ft).map (leafOf ft) <+: f.nodes
  internalAbove : ∀ i, (observed ft).length ≤ i → i < f.nodes.length → ∃ w l r, f.nodes[i]? = some (Node.internal w l r)
  queued : ∀ j, j ∈ f.pq ↔ j < f.nodes.length ∧ ∀ i, ¬ HasChild f.nodes i j
  parent_unique : ∀ i i' j, HasChild f.nodes i j → HasChild f.nodes i' j → i = i'
  front : ∀ (i : Nat) w l r, f.nodes[i]? = some (Node.internal w l r) → TookFront f.nodes i l r

/-- Step 1 of `BUILD` makes the leaves in order, and queues them all (spec/41_tree_builder.md R148). -/
theorem leafForest_spec (ft : Vector Word32 256) :
    ForestOk ft (observed ft) (leafForest ft) ∧ (leafForest ft).nodes = (observed ft).map (leafOf ft) ∧
      ∀ j, j ∈ (leafForest ft).pq ↔ j < (leafForest ft).nodes.length := by
  refine addLeaves_induct
    (fun syms f => ForestOk ft syms f ∧ f.nodes = syms.map (leafOf ft) ∧ ∀ j, j ∈ f.pq ↔ j < f.nodes.length)
    (fun done f sym _ ⟨hok, hnodes, hpq⟩ => ⟨forestOk_leaf sym hok, ?_, fun j => ?_⟩)
    allSymbols [] _ ⟨forestOk_nil ft, rfl, by simp⟩
  · rw [allocate_nodes, hnodes, List.map_append]
    rfl
  · rw [mem_allocate, hpq, allocate_nodes, List.length_append, List.length_singleton]
    omega

theorem mergeOk_leafForest (ft : Vector Word32 256) : MergeOk ft (leafForest ft) := by
  obtain ⟨hok, hnodes, hpq⟩ := leafForest_spec ft
  have hleaf {i : Nat} {w : Word32} {l r : Nat} : (leafForest ft).nodes[i]? ≠ some (Node.internal w l r) := by
    simp [hnodes, leafOf]
  have hchild (i j : Nat) : ¬ HasChild (leafForest ft).nodes i j := fun ⟨_, _, _, h, _⟩ => hleaf h
  exact
    { hok with
      leaves := hnodes ▸ List.prefix_refl _
      internalAbove := fun i hn hi => absurd hi (by rw [hnodes, List.length_map]; omega)
      queued := fun j => by simp [hpq, hchild]
      parent_unique := fun i _ j h => absurd h (hchild i j)
      front := fun _ _ _ _ h => absurd h hleaf }

/-- How the front stood when an earlier node was made is not changed by a merge. -/
theorem tookFront_append_internal {nodes : List Node} {w : Word32} {a b i l r : Nat} (hi : i < nodes.length)
    (hl : l < i) (hr : r < i) (h : TookFront nodes i l r) : TookFront (nodes ++ [.internal w a b]) i l r := by
  obtain ⟨hlr, hrest⟩ := h
  refine ⟨(queuedBefore_append _ (by omega) (by omega)).mpr hlr, fun j hj hjl hjr hno => ?_⟩
  refine (queuedBefore_append _ (by omega) (by omega)).mpr (hrest j hj hjl hjr fun k hk hkj => ?_)
  exact hno k hk (hasChild_append_internal.mpr (.inl hkj))

theorem mergeOk_merged {ft : Vector Word32 256} {f : Forest} {a b : Nat} {rest : List Nat}
    (hq : f.pq = a :: b :: rest) (h : MergeOk ft f) : MergeOk ft (merged f a b rest) := by
  have hmem (j : Nat) : j ∈ a :: b :: rest ↔ j < f.nodes.length ∧ ∀ i, ¬ HasChild f.nodes i j := hq ▸ h.queued j
  obtain ⟨ha, hanone⟩ := (hmem a).mp (by simp)
  obtain ⟨hb, hbnone⟩ := (hmem b).mp (by simp)
  have hfresh (i : Nat) : ¬ HasChild f.nodes i f.nodes.length := fun hc => by
    have := hc.lt h.acyclic
    omega
  have hnodup : (a :: b :: rest).Nodup := hq ▸ h.nodup
  have hsorted : (a :: b :: rest).Pairwise (QueuedBefore f.nodes) := hq ▸ h.sorted
  simp only [List.nodup_cons, List.mem_cons, not_or] at hnodup
  simp only [List.pairwise_cons] at hsorted
  obtain ⟨⟨hab, harest⟩, hbrest, -⟩ := hnodup
  obtain ⟨hafront, hbfront, -⟩ := hsorted
  refine
    { forestOk_merge hq h.toForestOk with
      leaves := h.leaves.trans (List.prefix_append _ _)
      internalAbove := fun i hn hi => ?above
      queued := fun j => ?queued
      parent_unique := fun i i' j hi hi' => ?unique
      front := fun i w l r hi => ?front }
  case above =>
    rw [merged_nodes] at hi ⊢
    rcases Nat.lt_or_ge i f.nodes.length with hlt | hge
    · rw [List.getElem?_append_left hlt]
      exact h.internalAbove i hn hlt
    · rw [List.length_append, List.length_singleton] at hi
      obtain rfl : i = f.nodes.length := by omega
      exact ⟨_, a, b, List.getElem?_concat_length⟩
  case queued =>
    rw [mem_merged, merged_nodes, List.length_append, List.length_singleton]
    simp only [hasChild_append_internal, not_or, not_and, forall_and, forall_eq]
    constructor
    · rintro (rfl | hj)
      · exact ⟨Nat.lt_succ_self _, hfresh, ha.ne, hb.ne⟩
      · obtain ⟨hlt, hnone⟩ := (hmem j).mp (by simp [hj])
        exact ⟨hlt.trans (Nat.lt_succ_self _), hnone, fun e => harest (e ▸ hj), fun e => hbrest (e ▸ hj)⟩
    · rintro ⟨hlt, hnone, hja, hjb⟩
      rcases Nat.lt_succ_iff_lt_or_eq.mp hlt with hlt | rfl
      · exact .inr (by simpa [Ne.symm hja, Ne.symm hjb] using (hmem j).mpr ⟨hlt, hnone⟩)
      · exact .inl rfl
  case unique =>
    rw [merged_nodes, hasChild_append_internal] at hi hi'
    have hnew {k : Nat} (hk : a = j ∨ b = j) : ¬ HasChild f.nodes k j := by
      rcases hk with rfl | rfl
      · exact hanone k
      · exact hbnone k
    rcases hi with hi | ⟨rfl, hj⟩ <;> rcases hi' with hi' | ⟨rfl, hj'⟩
    · exact h.parent_unique i i' j hi hi'
    · exact absurd hi (hnew hj')
    · exact absurd hi' (hnew hj)
    · rfl
  case front =>
    rw [merged_nodes] at hi ⊢
    rcases getElem?_allocate_cases hi with ⟨hlt, hi⟩ | ⟨rfl, hnew⟩
    · obtain ⟨hl, hr⟩ := h.acyclic i w l r hi
      exact tookFront_append_internal hlt hl hr (h.front i w l r hi)
    · injection hnew with _ hl hr
      subst hl hr
      refine ⟨(queuedBefore_append _ ha hb).mpr (hafront _ (by simp)), fun j hj hjl hjr hno => ?_⟩
      have hjq := (hmem j).mpr ⟨hj, fun k hk =>
        hno k (hk.lt h.acyclic).2 (hasChild_append_internal.mpr (.inl hk))⟩
      simp only [List.mem_cons, hjl, hjr, false_or] at hjq
      exact (queuedBefore_append _ hb hj).mpr (hbfront j hjq)

/-! ### The tree `BUILD` ends with -/

section
variable {ft : Vector Word32 256} {f : Forest} (h : buildForest ft = some f)
include h

theorem buildForest_mergeOk : MergeOk ft f := by
  obtain ⟨f', hf', hok, -⟩ := mergeLoop_induct (MergeOk ft) (fun _ _ _ _ => mergeOk_merged) (pqSize (leafForest ft)) _
    (mergeOk_leafForest ft)
  exact Option.some.inj (h.symm.trans hf') ▸ hok

/-- With no observed symbol there is no node. -/
theorem buildForest_of_observed_nil (h0 : observed ft = []) : f.nodes = [] ∧ f.pq = [] := by
  have hsize := (buildForest_ok h).1.size
  rw [h0, List.length_nil] at hsize
  exact ⟨List.eq_nil_of_length_eq_zero (by omega), List.eq_nil_of_length_eq_zero (by omega)⟩

/-- `n` leaves take `n - 1` merges, and the last node made is the one that stays queued (spec/41_tree_builder.md R149). -/
theorem buildForest_survivor (hne : observed ft ≠ []) :
    f.nodes.length = 2 * (observed ft).length - 1 ∧ f.pq = [2 * (observed ft).length - 2] := by
  obtain ⟨hok, hle⟩ := buildForest_ok h
  have hsize := hok.size
  have hpos := List.length_pos_of_ne_nil hne
  match hq : f.pq with
  | [] =>
    simp only [hq, buildForest_nodes_of_queue_nil h hq, List.length_nil] at hsize
    omega
  | [r] =>
    obtain ⟨-, rfl⟩ := buildForest_root h hq
    rw [hq, List.length_singleton] at hsize
    exact ⟨by omega, by congr 1; omega⟩
  | _ :: _ :: _ => simp [hq] at hle

/-- Every weight is the sum of the counts of the leaves below (spec/41_tree_builder.md R149). -/
theorem buildForest_weightAt (i : Nat) : weightAt f.nodes i = leafWeight ft f.nodes i := by
  obtain ⟨hok, -⟩ := buildForest_ok h
  refine tree_induct hok.acyclic (fun i => weightAt f.nodes i = leafWeight ft f.nodes i) ?_ ?_ ?_ i
  · intro i hi
    simp [weightAt, leafWeight, codes_of_none _ hi, hi]
  · intro i sym w hi
    simp [weightAt_of_getElem? hi, nodeWeight, leafWeight, codes_of_leaf _ hi, hok.leaf i sym w hi]
  · intro i w l r hi hl hr
    rw [weightAt_of_getElem? hi, nodeWeight, (hok.internal i w l r hi).2, hl, hr, leafWeight, leafWeight, leafWeight,
      codes_of_internal _ hok.acyclic hi, codes_path hok.acyclic l ([] ++ [false]),
      codes_path hok.acyclic r ([] ++ [true])]
    simp [Function.comp_def]

/-- The tree weighs what the counts sum to (spec/41_tree_builder.md R149). -/
theorem buildForest_root_weight {r : Nat} (hq : f.pq = [r]) (hsum : countSum ft < 2 ^ 32) :
    (weightAt f.nodes r).toNat = countSum ft := by
  obtain ⟨f', hf', -, hw⟩ := buildForest_exact ft (by rwa [sum_observed])
  obtain rfl := Option.some.inj (h.symm.trans hf')
  simpa [queuedWeight, hq, sum_observed] using hw

/-- What a later merge took was queued behind what an earlier one took, or made since; so it is no lighter than the
earlier right child. -/
theorem buildForest_child_heavier (hsum : countSum ft < 2 ^ 32) {i i' j l r : Nat} {w : Word32}
    (hi : f.nodes[i]? = some (Node.internal w l r)) (hlt : i < i') (hj : HasChild f.nodes i' j)
    (ih : ∀ m, i ≤ m → m < i' → (weightAt f.nodes i).toNat ≤ (weightAt f.nodes m).toNat) :
    (weightAt f.nodes r).toNat ≤ (weightAt f.nodes j).toNat := by
  have hok := buildForest_mergeOk h
  have hother {k : Nat} (hk : k ≤ i) : ¬ HasChild f.nodes k j := fun hc => by
    have := hok.parent_unique k i' j hc hj
    omega
  rcases Nat.lt_or_ge j i with hji | hij
  · have hjl : j ≠ l := fun e => hother le_rfl (e ▸ hasChild_left hi)
    have hjr : j ≠ r := fun e => hother le_rfl (e ▸ hasChild_right hi)
    exact ((hok.front i w l r hi).2 j hji hjl hjr fun k hk => hother hk.le).weight_le
  · have hexact := buildForest_weightsExact h hsum i w l r hi
    have hmono := ih j hij (hj.lt hok.acyclic).1
    rw [weightAt_of_getElem? hi, nodeWeight] at hmono
    omega

/-- The merged weights do not decrease (spec/41_tree_builder.md R150). -/
theorem buildForest_weight_mono (hsum : countSum ft < 2 ^ 32) {i : Nat} (hn : (observed ft).length ≤ i) (i' : Nat)
    (hle : i ≤ i') (hi' : i' < f.nodes.length) : (weightAt f.nodes i).toNat ≤ (weightAt f.nodes i').toNat := by
  have hok := buildForest_mergeOk h
  induction i' using Nat.strong_induction_on with
  | _ i' ih =>
    rcases hle.eq_or_lt with rfl | hlt
    · exact le_rfl
    · obtain ⟨w, l, r, hnode⟩ := hok.internalAbove i hn (by omega)
      obtain ⟨w', l', r', hnode'⟩ := hok.internalAbove i' (by omega) hi'
      have hih (m : Nat) (hm : i ≤ m) (hm' : m < i') := ih m hm' hm (hm'.trans hi')
      have hl' := buildForest_child_heavier h hsum hnode hlt (hasChild_left hnode') hih
      have hr' := buildForest_child_heavier h hsum hnode hlt (hasChild_right hnode') hih
      have hlr := (hok.front i w l r hnode).1.weight_le
      have hexact := buildForest_weightsExact h hsum i w l r hnode
      have hexact' := buildForest_weightsExact h hsum i' w' l' r' hnode'
      rw [weightAt_of_getElem? hnode, weightAt_of_getElem? hnode', nodeWeight, nodeWeight]
      omega

end

/-! ### Holding the tree -/

theorem holdTree_of_queue_nil {f : Forest} (hq : f.pq = []) (s : State) :
    holdTree f s = { s with nodes := f.nodes, pq := f.pq, tree := false, root := 0 } := by simp [holdTree, hq]

theorem holdTree_of_queue_singleton {f : Forest} {r : Nat} (hq : f.pq = [r]) (s : State) :
    holdTree f s = { s with nodes := f.nodes, pq := f.pq, tree := true, root := r } := by simp [holdTree, hq]

/-- `TREE` and `ROOT` are read off the forest alone. -/
theorem holdTree_tree_root (f : Forest) (s u : State) :
    (holdTree f s).tree = (holdTree f u).tree ∧ (holdTree f s).root = (holdTree f u).root := by
  unfold holdTree
  split <;> exact ⟨rfl, rfl⟩

/-! ### The faults a command raises -/

/-- No command finds the queue empty: `BUILD` does not, and it alone takes from it (spec/41_tree_builder.md R144). -/
theorem Faults.ne_queueEmpty {s : State} {i : Instr} {c : FaultCode} (h : Faults s i c) : c ≠ .queueEmpty := by
  cases h <;> simp

theorem errCode_eq_seven {c : FaultCode} (h : errCode c = 7#8) : c = .queueEmpty := by
  revert h
  cases c <;> simp [errCode]

end Sys2Proof.Machine

open Sys2Proof Sys2Proof.Machine

/-! ### The statements about the tree builder -/

/-- Settles O21: the insertion cuts the queue at the last item that is no heavier. -/
theorem pqInsertIsStable : Obligations.PqInsertIsStable := by
  intro n f h
  obtain ⟨before, after, hpq, hins, hbefore, hafter⟩ := pqInsert_splits (n := n) h
  refine ⟨before, after, hpq, hins, hbefore, hafter, rfl, pqInsert_length n f, ?_⟩
  rw [hins]
  exact pairwise_insert (hpq ▸ h) hbefore hafter

/-- Settles O22: each clause is read off `MergeOk` of the forest, whose queue holds one node or none. -/
theorem buildShapesTheTree : Obligations.BuildShapesTheTree := by
  intro s he htb
  obtain ⟨f, hf, -⟩ := buildForest_spec s.ft
  refine ⟨_, exec_of_acts he htb (.build f hf), ?_⟩
  by_cases h0 : observed s.ft = []
  · obtain ⟨hnodes, hpq⟩ := buildForest_of_observed_nil hf h0
    rw [holdTree_of_queue_nil hpq]
    exact ⟨rfl, fun _ => ⟨hnodes, hpq, rfl, rfl⟩, fun hne => absurd h0 hne⟩
  · have hok := buildForest_mergeOk hf
    obtain ⟨hlen, hpq⟩ := buildForest_survivor hf h0
    rw [holdTree_of_queue_singleton hpq]
    refine ⟨rfl, fun hnil => absurd hnil h0, fun _ => ⟨hlen, rfl, hpq, rfl, fun i sym hi => ?leaf,
      fun i hn hi => ?internal, fun j hj => ?parent, fun i w l r hi => ?front, fun i _ => buildForest_weightAt hf i,
      fun hsum => ?total⟩⟩
    case leaf =>
      obtain ⟨internal, hsplit⟩ := hok.leaves
      have hlt : i < ((observed s.ft).map (leafOf s.ft)).length := by
        simpa using (List.getElem?_eq_some_iff.mp hi).1
      rw [← hsplit, List.getElem?_append_left hlt, List.getElem?_map, hi]
      rfl
    case internal =>
      obtain ⟨w, l, r, hnode⟩ := hok.internalAbove i hn (hlen ▸ hi)
      obtain ⟨hl, hr⟩ := hok.acyclic i w l r hnode
      obtain ⟨hlr, hw⟩ := hok.internal i w l r hnode
      exact ⟨l, r, hw ▸ hnode, hl, hr, hlr⟩
    case parent =>
      have hnot : j ∉ f.pq := by
        rw [hpq, List.mem_singleton]
        omega
      have hex : ∃ i, HasChild f.nodes i j := by
        by_contra hnone
        exact hnot ((hok.queued j).mpr ⟨by omega, not_exists.mp hnone⟩)
      obtain ⟨i, hi⟩ := hex
      exact ⟨i, hi, fun i' hi' => hok.parent_unique i' i j hi' hi⟩
    case front =>
      obtain ⟨hlr, hrest⟩ := hok.front i w l r hi
      refine ⟨hlr, fun j hj hjl hjr hno => hrest j hj hjl hjr ?_⟩
      rintro k hk ⟨w', l', r', hk', hj'⟩
      obtain ⟨hl', hr'⟩ := hno k w' l' r' hk hk'
      exact hj'.elim (fun e => hl' e.symm) fun e => hr' e.symm
    case total =>
      exact BitVec.eq_of_toNat_eq ((buildForest_root_weight hf hpq (hsum ▸ s.total.isLt)).trans hsum)

/-- Settles O23: both children of a later merge are no lighter than the right child of an earlier one. -/
theorem mergeWeightsDoNotDecrease : Obligations.MergeWeightsDoNotDecrease := by
  intro s he htb hsum
  obtain ⟨f, hf, -⟩ := buildForest_spec s.ft
  refine ⟨_, exec_of_acts he htb (.build f hf), fun i j hn hij hj => ?_⟩
  rw [holdTree_nodes] at hj ⊢
  exact buildForest_weight_mono hf hsum hn j hij hj

/-- Settles O50: a command writes `ERR` by `RESET` and by a fault only, and no fault is `QueueEmpty`. -/
theorem queueEmptyIsNeverRaised : Obligations.QueueEmptyIsNeverRaised := by
  refine ⟨fun ft => (buildForest_spec ft).imp fun _ hf => hf.1, fun i s t h h7 => ?_⟩
  cases exec_does h with
  | reset => simp at h7
  | rdsr | dropped => exact h7
  | faults _ c _ hf => exact absurd (errCode_eq_seven h7) hf.ne_queueEmpty
  | acts _ _ _ _ ha => rwa [(acts_err ha).1] at h7

/-- Settles O18: the answer is `tbDiscard`. -/
theorem fclrClearsTheUnit : Obligations.FclrClearsTheUnit :=
  ⟨rfl, fun _ he htb => ⟨_, exec_of_acts he htb .fclr, countAt_noCounts, rfl⟩⟩

/-- Settles O19: at the limit of `TOTAL` the fault, below it `countSymbol`. -/
theorem tabCountsOneOccurrence : Obligations.TabCountsOneOccurrence := by
  intro sym s
  refine ⟨rfl, fun he htb => ⟨fun ht => exec_of_faults (i := .tab sym) he htb (.countOverflow sym ht), fun ht => ?_⟩⟩
  refine ⟨_, exec_of_acts he htb (.tab sym ht), fun x => ?_, rfl⟩
  rw [countSymbol_ft, countAt_setCount]
  by_cases hx : x = sym
  · rw [if_pos hx, if_pos hx, hx]
  · rw [if_neg hx, if_neg hx]

/-- Settles O20: the bytes are `be32` of the count. -/
theorem fgetSendsTheCount : Obligations.FgetSendsTheCount :=
  fun sym _ => ⟨rfl, fun he htb => exec_of_acts he htb (.fget sym), command_dropped _⟩

/-- Settles O24: the forest is made from `FT`, and the unit's variables from the forest. -/
theorem buildIsAFunctionOfTheCounts : Obligations.BuildIsAFunctionOfTheCounts := by
  intro s u hes hts heu htu hft
  obtain ⟨f, hf, -⟩ := buildForest_spec s.ft
  obtain ⟨htree, hroot⟩ := holdTree_tree_root f s u
  exact ⟨_, _, exec_of_acts hes hts (.build f hf), exec_of_acts heu htu (.build f (hft ▸ hf)), by simp, by simp, htree,
    hroot⟩

/-- Settles O60: the queue's head is taken twice, and the node made of the two is allocated. -/
theorem mergeTakesTheTwoFrontItems : Obligations.MergeTakesTheTwoFrontItems := fun _ =>
  ⟨pqExtractMin_nil, fun _ _ => pqExtractMin_cons, mergeOnce_of_length_lt_two, fun _ _ _ => mergeOnce_cons⟩

end

section
/-! SUPPORT. The code table `ASSIGN` leaves: which codes it stores, a table stored from a code list, the codes of the tree
`BUILD` makes, and how deep its nodes lie. The statements of spec/42_code_table.md follow. -/

namespace Sys2Proof.Machine

/-! ### What `ASSIGN` stores -/

/-- For the null tree nothing is stored (spec/42_code_table.md R182). -/
theorem assignedCodes_of_null {s : State} (ht : s.tree = false) : assignedCodes s = [] := by
  simp [assignedCodes, ht]

/-- A tree of one leaf gives its symbol the code 0 (spec/42_code_table.md R182). -/
theorem assignedCodes_of_leaf {s : State} {sym : Symbol} {w : Word32} (ht : s.tree = true)
    (hn : s.nodes[s.root]? = some (Node.leaf sym w)) : assignedCodes s = [(sym, [false])] := by
  simp [assignedCodes, ht, hn]

/-- A tree with an internal root gives the codes below it (spec/42_code_table.md R180). -/
theorem assignedCodes_of_internal {s : State} {w : Word32} {l r : Nat} (ht : s.tree = true)
    (hn : s.nodes[s.root]? = some (Node.internal w l r)) : assignedCodes s = codes s.nodes s.root [] := by
  simp [assignedCodes, ht, hn]

/-! ### A table stored from a code list -/

theorem mem_observed {ft : Vector Word32 256} {x : Symbol} : x ∈ observed ft ↔ countAt ft x ≠ 0#32 := by
  simp [observed]

theorem observed_nodup (ft : Vector Word32 256) : (observed ft).Nodup := allSymbols_nodup.filter _

/-- One code for each of `syms`, not empty, none longer than the number of symbols less one (a single symbol's has one
bit), none the beginning of another's (spec/42_code_table.md R184 clauses 1 to 4). -/
structure CodeList (syms : List Symbol) (l : List (Symbol × BitString)) : Prop where
  symbols : (l.map Prod.fst).Perm syms
  nonempty : ∀ e ∈ l, 1 ≤ e.2.length
  length_le : ∀ e ∈ l, e.2.length ≤ max 1 (syms.length - 1)
  prefixFree : l.Pairwise fun e f => ¬ (e.2 <+: f.2) ∧ ¬ (f.2 <+: e.2)

section
variable {syms : List Symbol} {l : List (Symbol × BitString)} (h : CodeList syms l) (hn : syms.Nodup)
include h hn

/-- Each of `syms` finds its code listed. -/
theorem CodeList.mem_of_mem_syms {x : Symbol} (hx : x ∈ syms) : (x, codeAt (storeCodes l noCodes) x) ∈ l := by
  obtain ⟨⟨y, c⟩, he, rfl⟩ := List.mem_map.mp (h.symbols.mem_iff.mpr hx)
  rwa [storeCodes_of_mem (h.symbols.nodup_iff.mpr hn) he]

/-- The present codes are those of `syms`. -/
theorem CodeList.present_iff {x : Symbol} : codeAt (storeCodes l noCodes) x ≠ [] ↔ x ∈ syms := by
  constructor
  · intro hx
    by_contra hno
    exact hx ((storeCodes_of_not_mem (h.symbols.mem_iff.not.mpr hno)).trans (codeAt_noCodes x))
  · intro hx
    exact List.ne_nil_of_length_pos (h.nonempty _ (h.mem_of_mem_syms hn hx))

theorem CodeList.prefixFree_table : PrefixFree (storeCodes l noCodes) := by
  intro x y hxy hx hy
  have hsymm : Std.Symm fun e f : Symbol × BitString => ¬ (e.2 <+: f.2) ∧ ¬ (f.2 <+: e.2) := ⟨fun _ _ => And.symm⟩
  have hmem {z : Symbol} (hz : codeAt (storeCodes l noCodes) z ≠ []) := h.mem_of_mem_syms hn ((h.present_iff hn).mp hz)
  exact (h.prefixFree.forall (hmem hx) (hmem hy) fun e => hxy (Prod.mk.inj e).1).1

/-- Kraft's sum over the table is the sum over the list. -/
theorem CodeList.kraftSum_table :
    kraftSum (storeCodes l noCodes) = (l.map fun e => 2 ^ (255 - e.2.length)).sum := by
  have hnodup : (l.map Prod.fst).Nodup := h.symbols.nodup_iff.mpr hn
  have hperm : (allSymbols.filter fun x => !(codeAt (storeCodes l noCodes) x).isEmpty).Perm (l.map Prod.fst) := by
    refine (List.perm_ext_iff_of_nodup (allSymbols_nodup.filter _) hnodup).mpr fun x => ?_
    simpa [h.symbols.mem_iff] using h.present_iff hn
  rw [kraftSum, (hperm.map _).sum_eq, List.map_map]
  congr 1
  exact List.map_congr_left fun e he => by rw [Function.comp, storeCodes_of_mem hnodup he]

end

/-! ### The codes of the tree `BUILD` makes -/

theorem holdTree_root {f : Forest} {r : Nat} (hq : f.pq = [r]) (s : State) : (holdTree f s).root = r := by
  rw [holdTree_of_queue_singleton hq]

/-- Below an internal node every code has a bit. -/
theorem codes_nonempty_of_internal {nodes : List Node} {n l r : Nat} {w : Word32} (ha : Acyclic nodes)
    (hn : nodes[n]? = some (Node.internal w l r)) : ∀ e ∈ codes nodes n [], 1 ≤ e.2.length := by
  intro e he
  rw [codes_of_internal _ ha hn, codes_path ha l, codes_path ha r] at he
  rcases List.mem_append.mp he with he | he
  all_goals
    obtain ⟨e', -, rfl⟩ := List.mem_map.mp he
    simp

section
variable {ft : Vector Word32 256} {f : Forest} (h : buildForest ft = some f)
include h

/-- The tree holds each observed symbol once. -/
theorem buildForest_symbols {r : Nat} (hq : f.pq = [r]) : ((codes f.nodes r []).map Prod.fst).Perm (observed ft) := by
  simpa [queuedSymbols, hq] using (buildForest_ok h).1.symbols

/-- With one observed symbol its leaf is the root (spec/42_code_table.md R182). -/
theorem assignedCodes_holdTree_singleton {x : Symbol} (h1 : observed ft = [x]) (s : State) :
    assignedCodes (holdTree f s) = [(x, [false])] := by
  obtain ⟨-, hpq⟩ := buildForest_survivor h (by simp [h1])
  obtain ⟨internal, hsplit⟩ := (buildForest_mergeOk h).leaves
  rw [holdTree_of_queue_singleton hpq]
  refine assignedCodes_of_leaf (w := countAt ft x) rfl ?_
  simp [← hsplit, h1, leafOf]

/-- With more than one observed symbol the root is a merge. -/
theorem buildForest_root_internal (h2 : 2 ≤ (observed ft).length) {root : Nat} (hq : f.pq = [root]) :
    ∃ w l r, f.nodes[root]? = some (Node.internal w l r) := by
  obtain ⟨hlen, -⟩ := buildForest_survivor h (List.ne_nil_of_length_pos (by omega))
  obtain ⟨-, hroot⟩ := buildForest_root h hq
  exact (buildForest_mergeOk h).internalAbove _ (by omega) (by omega)

theorem assignedCodes_holdTree_of_two_le (h2 : 2 ≤ (observed ft).length) {root : Nat} (hq : f.pq = [root])
    (s : State) : assignedCodes (holdTree f s) = codes f.nodes root [] := by
  obtain ⟨w, l, r, hroot⟩ := buildForest_root_internal h h2 hq
  rw [holdTree_of_queue_singleton hq]
  exact assignedCodes_of_internal rfl hroot

/-- After `BUILD`, `ASSIGN` stores a code list of the observed symbols. -/
theorem assignedCodes_codeList (s : State) : CodeList (observed ft) (assignedCodes (holdTree f s)) := by
  match ho : observed ft with
  | [] =>
    rw [holdTree_of_queue_nil (buildForest_of_observed_nil h ho).2, assignedCodes_of_null rfl]
    exact ⟨List.Perm.nil, by simp, by simp, List.Pairwise.nil⟩
  | [x] =>
    rw [assignedCodes_holdTree_singleton h ho]
    exact ⟨List.Perm.refl _, by simp, by simp, List.pairwise_singleton _ _⟩
  | _ :: _ :: _ =>
    have h2 : 2 ≤ (observed ft).length := by simp [ho]
    obtain ⟨-, hpq⟩ := buildForest_survivor h (List.ne_nil_of_length_pos (by omega))
    obtain ⟨w, l, r, hroot⟩ := buildForest_root_internal h h2 hpq
    have ha := (buildForest_ok h).1.acyclic
    have hsymbols := buildForest_symbols h hpq
    rw [← ho, assignedCodes_holdTree_of_two_le h h2 hpq]
    refine ⟨hsymbols, codes_nonempty_of_internal ha hroot, fun e he => ?_, codes_prefixFree ha _⟩
    have hdepth := codes_depth ha _ e he
    have hleaves := hsymbols.length_eq
    rw [List.length_map] at hleaves
    omega

/-- From two symbols on the stored codes fill the code space (spec/42_code_table.md R184 clause 5). -/
theorem assignedCodes_kraft (h2 : 2 ≤ (observed ft).length) (s : State) :
    ((assignedCodes (holdTree f s)).map fun e => 2 ^ (255 - e.2.length)).sum = 2 ^ 255 := by
  obtain ⟨hlen, hpq⟩ := buildForest_survivor h (List.ne_nil_of_length_pos (by omega))
  rw [assignedCodes_holdTree_of_two_le h h2 hpq]
  exact codes_kraft (buildForest_ok h).1.acyclic _ (by omega) 255 (buildForest_depth h hpq)

end

/-! ### How deep a node lies -/

/-- Node `i` lies `d` edges below `root`. -/
inductive DepthAt (nodes : List Node) (root : Nat) : Nat → Nat → Prop where
  | root : DepthAt nodes root root 0
  | child {i j d : Nat} (h : DepthAt nodes root i d) (hj : HasChild nodes i j) : DepthAt nodes root j (d + 1)

/-- A code is as long as its leaf lies deep. -/
theorem leaf_depth_of_mem_codes {nodes : List Node} (ha : Acyclic nodes) {root : Nat} (n : Nat) :
    ∀ p : BitString, DepthAt nodes root n p.length → ∀ e ∈ codes nodes n p,
      ∃ i w, nodes[i]? = some (Node.leaf e.1 w) ∧ DepthAt nodes root i e.2.length := by
  refine tree_induct ha (fun n => ∀ p : BitString, DepthAt nodes root n p.length → ∀ e ∈ codes nodes n p,
    ∃ i w, nodes[i]? = some (Node.leaf e.1 w) ∧ DepthAt nodes root i e.2.length) ?_ ?_ ?_ n
  · intro n hn p _ e he
    simp [codes_of_none _ hn] at he
  · intro n sym w hn p hp e he
    rw [codes_of_leaf _ hn, List.mem_singleton] at he
    exact he ▸ ⟨n, w, hn, hp⟩
  · intro n w l r hn hl hr p hp e he
    rw [codes_of_internal _ ha hn] at he
    rcases List.mem_append.mp he with he | he
    · exact hl _ (by simpa using hp.child (hasChild_left hn)) e he
    · exact hr _ (by simpa using hp.child (hasChild_right hn)) e he

/-- Queue order is strict. -/
theorem not_queuedBefore_self (nodes : List Node) (a : Nat) : ¬ QueuedBefore nodes a a := by
  rintro (hw | ⟨-, hlt⟩)
  · exact lt_irrefl _ hw
  · exact lt_irrefl _ hlt

theorem QueuedBefore.trans {nodes : List Node} {a b c : Nat} (hab : QueuedBefore nodes a b)
    (hbc : QueuedBefore nodes b c) : QueuedBefore nodes a c := by
  rcases hab with hlt | ⟨heq, hlt⟩
  · exact .inl (hlt.trans_le hbc.weight_le)
  · rcases hbc with hlt' | ⟨heq', hlt'⟩
    · exact .inl (heq ▸ hlt')
    · exact .inr ⟨heq.trans heq', hlt.trans hlt'⟩

section
variable {ft : Vector Word32 256} {f : Forest} (h : buildForest ft = some f)
include h

/-- The nodes with children stand behind the leaves (spec/41_tree_builder.md R148). -/
theorem buildForest_observed_le_of_hasChild {i j : Nat} (hij : HasChild f.nodes i j) : (observed ft).length ≤ i := by
  obtain ⟨w, l, r, hi, -⟩ := hij
  obtain ⟨internal, hsplit⟩ := (buildForest_mergeOk h).leaves
  by_contra hlt
  rw [← hsplit, List.getElem?_append_left (by simpa using hlt), List.getElem?_map] at hi
  obtain ⟨sym, -, hleaf⟩ := Option.map_eq_some_iff.mp hi
  cases hleaf

variable (hsum : countSum ft < 2 ^ 32)
include hsum

/-- The queue is first in, first out: of two nodes the one queued before is merged no later. -/
theorem buildForest_parent_le {i j p q : Nat} (hij : QueuedBefore f.nodes i j) (hi : HasChild f.nodes p i)
    (hj : HasChild f.nodes q j) : p ≤ q := by
  have hok := buildForest_mergeOk h
  by_contra hlt
  have hnot {k : Nat} (hk : k ≤ q) : ¬ HasChild f.nodes k i := fun hc => by
    have := hok.parent_unique k p i hc hi
    omega
  have ⟨w, l, r, hq, hlr⟩ := hj
  rcases Nat.lt_or_ge i q with hiq | hqi
  · -- `i` was still queued when `q` was made, so `l` and `r` stood in front of it
    obtain ⟨hfront, hrest⟩ := hok.front q w l r hq
    have hri : QueuedBefore f.nodes r i :=
      hrest i hiq (fun e => hnot le_rfl (e ▸ hasChild_left hq)) (fun e => hnot le_rfl (e ▸ hasChild_right hq))
        fun k hk => hnot hk.le
    have hji : QueuedBefore f.nodes j i := by
      rcases hlr with rfl | rfl
      · exact hfront.trans hri
      · exact hri
    exact not_queuedBefore_self _ _ (hij.trans hji)
  · -- `i` was made no earlier than `q`, so it weighs no less than `q`, which weighs no less than `j`
    have hjq := (hj.lt hok.acyclic).1
    have hmono := buildForest_weight_mono h hsum (buildForest_observed_le_of_hasChild h hj) i hqi
      ((hi.lt hok.acyclic).1.trans (hi.lt hok.acyclic).2)
    have hexact := buildForest_weightsExact h hsum q w l r hq
    rw [weightAt_of_getElem? hq, nodeWeight] at hmono
    have hjw : (weightAt f.nodes j).toNat ≤ w.toNat := by
      rcases hlr with rfl | rfl <;> omega
    rcases hij with hw | ⟨-, hlt'⟩ <;> omega

/-- The root is no child, and is queued before none. -/
theorem buildForest_root_last {r i j : Nat} (hq : f.pq = [r]) (hj : HasChild f.nodes i j) :
    r ≠ j ∧ ¬ QueuedBefore f.nodes r j := by
  obtain ⟨-, hr⟩ := buildForest_root h hq
  obtain ⟨hji, hi⟩ := hj.lt (buildForest_ok h).1.acyclic
  have hle := buildForest_weight_le h j
  have hroot := buildForest_root_weight h hq hsum
  refine ⟨by omega, ?_⟩
  rintro (hw | ⟨-, hlt⟩) <;> omega

/-- A node queued before another lies no less deep: its parent is the same, or made and queued before the other's. -/
theorem buildForest_depth_anti {r : Nat} (hq : f.pq = [r]) {i d j e : Nat} (hi : DepthAt f.nodes r i d)
    (hj : DepthAt f.nodes r j e) (hij : i = j ∨ QueuedBefore f.nodes i j) : e ≤ d := by
  induction hj generalizing i d with
  | root => exact Nat.zero_le _
  | @child q j e _ hqj ih =>
    cases hi with
    | root =>
      obtain ⟨hne, hnot⟩ := buildForest_root_last h hsum hq hqj
      exact absurd hij (not_or.mpr ⟨hne, hnot⟩)
    | @child p _ d hpd hpi =>
      refine Nat.succ_le_succ (ih hpd ?_)
      have hle : p ≤ q := by
        rcases hij with rfl | hij
        · exact ((buildForest_mergeOk h).parent_unique p q i hpi hqj).le
        · exact buildForest_parent_le h hsum hij hpi hqj
      refine hle.eq_or_lt.imp_right fun hlt => ?_
      have hmono := buildForest_weight_mono h hsum (buildForest_observed_le_of_hasChild h hpi) q hle
        (hqj.lt (buildForest_ok h).1.acyclic).2
      exact hmono.lt_or_eq.imp_right fun hw => ⟨BitVec.eq_of_toNat_eq hw, hlt⟩

/-- Of two codes of the tree that of the more frequent symbol is no longer (spec/42_code_table.md R184 clause 6). -/
theorem buildForest_code_length_le {r : Nat} (hq : f.pq = [r]) {x y : Symbol} {c c' : BitString}
    (hx : (x, c) ∈ codes f.nodes r []) (hy : (y, c') ∈ codes f.nodes r [])
    (hlt : (countAt ft y).toNat < (countAt ft x).toNat) : c.length ≤ c'.length := by
  obtain ⟨hok, -⟩ := buildForest_ok h
  obtain ⟨j, w, hj, hjd⟩ := leaf_depth_of_mem_codes hok.acyclic r [] .root _ hx
  obtain ⟨i, w', hi, hid⟩ := leaf_depth_of_mem_codes hok.acyclic r [] .root _ hy
  refine buildForest_depth_anti h hsum hq hid hjd (.inr (.inl ?_))
  rw [weightAt_of_getElem? hi, weightAt_of_getElem? hj, nodeWeight, nodeWeight, hok.leaf i y w' hi, hok.leaf j x w hj]
  exact hlt

end

/-! ### `BUILD`, then `ASSIGN` -/

theorem exec_build_assign {s : State} {f : Forest} (he : s.err = 0#8) (htb : s.hasTb = true)
    (hf : buildForest s.ft = some f) : ∃ t, exec .build s = .next (holdTree f s) ∧
      exec .assign (holdTree f s) = .next t ∧ t.ct = storeCodes (assignedCodes (holdTree f s)) noCodes :=
  ⟨_, exec_of_acts he htb (.build f hf),
    exec_of_acts ((holdTree_err f s).trans he) ((holdTree_hasTb f s).trans htb) .assign, rfl⟩

end Sys2Proof.Machine

open Sys2Proof Sys2Proof.Machine

/-! ### The statements about the code table -/

/-- Settles O26: the hypothesis is `Acyclic`, under which `codes` unfolds node by node. -/
theorem codesFollowTheTree : Obligations.CodesFollowTheTree := fun _ _ p ha =>
  ⟨fun _ _ hn => codes_of_leaf p hn, fun _ _ _ hn => codes_of_internal p ha hn⟩

/-- Settles O30: the table is `noCodes`, in which every look-up misses. -/
theorem ctclrEmptiesTheTable : Obligations.CtclrEmptiesTheTable :=
  ⟨rfl, fun s he => ⟨{ s with ct := noCodes }, exec_of_acts he rfl .ctclr, codeAt_noCodes, rfl, fun x =>
    exec_of_faults (s := { s with ct := noCodes }) he rfl (.lookupMiss x (codeAt_noCodes x))⟩⟩

/-- Settles O31: the effect empties `PATH` whatever it held, so a second `PCLR` changes nothing. -/
theorem pclrEmptiesThePath : Obligations.PclrEmptiesThePath :=
  ⟨rfl, fun _ he => ⟨exec_of_acts he rfl .pclr, exec_of_acts (i := .pclr) he rfl .pclr⟩⟩

/-- Settles O32: the fault at 255 bits, the effect below; format B leaves the opcode two words. -/
theorem pbitAppendsToThePath : Obligations.PbitAppendsToThePath := by
  refine ⟨rfl, rfl, fun hasTb x hx => ?_, fun b s he => ⟨fun hlen => ?_, fun hlen => ?_⟩⟩
  · rw [decode_mkWord]
    exact ⟨.argNotBit, if_neg (Nat.not_le.mpr hx)⟩
  · exact exec_of_faults he rfl (.codeTooLong b hlen)
  · exact exec_of_acts he rfl (.pbit b hlen)

/-- Settles O33: the fault with `PATH` empty, else `setCode`. -/
theorem ctsetStoresThePath : Obligations.CtsetStoresThePath := by
  refine fun sym s => ⟨rfl, fun he => ⟨fun hp => ?_, fun hp => ?_⟩⟩
  · exact exec_of_faults (i := .ctset sym) he rfl (.emptyCode sym hp)
  · exact ⟨_, exec_of_acts he rfl (.ctset sym hp), fun x => codeAt_setCode s.ct sym x s.path, rfl⟩

/-- Settles O34: the bytes are the length and `pack` of the entry, which for an absent one is empty. -/
theorem ctgetSendsTheCode : Obligations.CtgetSendsTheCode := by
  intro sym s
  have hget (he : s.err = 0#8) := exec_of_acts he rfl (.ctget sym)
  refine ⟨rfl, fun he => ⟨hget he, fun hc => ?_⟩, command_dropped _, pack_length _⟩
  rw [hget he, hc]
  rfl

/-- Settles O27: the table is `storeCodes` of what each shape of tree assigns. -/
theorem assignStoresTheCodes : Obligations.AssignStoresTheCodes := by
  refine ⟨rfl, fun s he htb => ⟨_, exec_of_acts he htb .assign, countAt_noCounts, rfl, fun ht x => ?null,
    fun sym w ht hn x => ?leaf, fun w l r ht hn hnodup => ?internal⟩⟩
  case null =>
    rw [tbDiscard_ct, assignedCodes_of_null ht]
    exact codeAt_noCodes x
  case leaf =>
    rw [tbDiscard_ct, assignedCodes_of_leaf ht hn, storeCodes, storeCodes, codeAt_setCode, codeAt_noCodes]
  case internal =>
    rw [tbDiscard_ct, assignedCodes_of_internal ht hn]
    exact ⟨fun x c hx => storeCodes_of_mem hnodup hx, fun x hx => (storeCodes_of_not_mem hx).trans (codeAt_noCodes x)⟩

/-- Settles O28: the codes stored are a `CodeList` of the observed symbols, and its properties carry over to the table. -/
theorem derivedCodesAreCompleteAndPrefixFree : Obligations.DerivedCodesAreCompleteAndPrefixFree := by
  intro s he htb
  obtain ⟨f, hf, -⟩ := buildForest_spec s.ft
  obtain ⟨t, hbuild, hassign, hct⟩ := exec_build_assign he htb hf
  have hlist := assignedCodes_codeList hf s
  have hn := observed_nodup s.ft
  have hmem {x : Symbol} (hx : countAt s.ft x ≠ 0#32) := hlist.mem_of_mem_syms hn (mem_observed.mpr hx)
  refine ⟨_, t, hbuild, hassign, ?_⟩
  rw [hct]
  refine ⟨fun x => (hlist.present_iff hn).trans mem_observed, fun x h2 hx => ?path, fun x h1 hx => ?single,
    fun x hx => ⟨hlist.nonempty _ (hmem hx), hlist.length_le _ (hmem hx), ?cap⟩, hlist.prefixFree_table hn,
    fun h2 => (hlist.kraftSum_table hn).trans (assignedCodes_kraft hf h2 s)⟩
  case path =>
    obtain ⟨-, hpq⟩ := buildForest_survivor hf (List.ne_nil_of_length_pos (by omega))
    rw [holdTree_nodes, holdTree_root hpq, ← assignedCodes_holdTree_of_two_le hf h2 hpq s]
    exact hmem hx
  case single =>
    obtain ⟨y, hy⟩ := List.length_eq_one_iff.mp h1
    have hxc := hmem hx
    rw [assignedCodes_holdTree_singleton hf hy, List.mem_singleton] at hxc
    rw [assignedCodes_holdTree_singleton hf hy]
    exact (Prod.mk.inj hxc).2
  case cap =>
    have hobs := observed_length_le s.ft
    exact (hlist.length_le _ (hmem hx)).trans (by omega)

/-- Settles O29: the two codes are those of the tree, where the leaf queued before lies no less deep. -/
theorem moreFrequentSymbolsHaveNoLongerCodes : Obligations.MoreFrequentSymbolsHaveNoLongerCodes := by
  intro s x y he htb hsum hy hlt
  obtain ⟨f, hf, -⟩ := buildForest_spec s.ft
  obtain ⟨t, hbuild, hassign, hct⟩ := exec_build_assign he htb hf
  have hxobs : x ∈ observed s.ft := mem_observed.mpr fun e => by simp [e] at hlt
  have hyobs : y ∈ observed s.ft := mem_observed.mpr fun e => by simp [e] at hy
  have h2 : 2 ≤ (observed s.ft).length := by
    have hxy : x ≠ y := fun e => by simp [e] at hlt
    exact (List.subperm_of_subset (l₁ := [x, y]) (by simpa using hxy) (by simp [hxobs, hyobs])).length_le
  obtain ⟨-, hpq⟩ := buildForest_survivor hf (List.ne_nil_of_mem hxobs)
  have hlist := assignedCodes_codeList hf s
  refine ⟨_, t, hbuild, hassign, ?_⟩
  rw [assignedCodes_holdTree_of_two_le hf h2 hpq] at hlist hct
  rw [hct]
  have hmem {z : Symbol} (hz : z ∈ observed s.ft) := hlist.mem_of_mem_syms (observed_nodup s.ft) hz
  exact buildForest_code_length_le hf hsum hpq (hmem hxobs) (hmem hyobs) hlt

end

section
/-! SUPPORT. Runs of commands taken apart, the stream as a whole when a text is encoded and flushed, and what a run of
`TAB`, `BUILD`, `ASSIGN` leaves for `ENC`. The statements of spec/43_encoder.md follow. -/

namespace Sys2Proof.Machine

/-! ### Runs of commands -/

theorem runCommands_cons_eq_next {i : Instr} {is : List Instr} {s t : State} :
    runCommands (i :: is) s = .next t ↔ ∃ u, exec i s = .next u ∧ runCommands is u = .next t := by
  rw [runCommands]
  cases exec i s <;> simp

theorem runCommands_append_eq_next {is js : List Instr} {s t : State} :
    runCommands (is ++ js) s = .next t ↔ ∃ u, runCommands is s = .next u ∧ runCommands js u = .next t := by
  induction is generalizing s with
  | nil => simp [runCommands]
  | cons i is ih =>
    simp only [List.cons_append, runCommands_cons_eq_next, ih]
    exact ⟨fun ⟨v, hv, u, hu, ht⟩ => ⟨u, ⟨v, hv, hu⟩, ht⟩, fun ⟨u, ⟨v, hv, hu⟩, ht⟩ => ⟨v, hv, u, hu, ht⟩⟩

theorem runCommands_singleton (i : Instr) (s : State) : runCommands [i] s = exec i s := by
  rw [runCommands]
  cases exec i s <;> rfl

/-- What every command of a list keeps, the run of the list keeps. -/
theorem runCommands_keeps {P : State → Prop} {is : List Instr} {s t : State}
    (hstep : ∀ i ∈ is, ∀ u v, P u → exec i u = .next v → P v) (hs : P s) (h : runCommands is s = .next t) : P t := by
  induction is generalizing s with
  | nil =>
    injection h with h
    exact h ▸ hs
  | cons i is ih =>
    obtain ⟨u, hu, ht⟩ := runCommands_cons_eq_next.mp h
    exact ih (fun j hj => hstep j (List.mem_cons_of_mem _ hj)) (hstep i List.mem_cons_self s u hs hu) ht

/-! ### The stream -/

theorem pack_wholeBytes_append_pendingBits (bits : BitString) :
    pack (wholeBytes bits) ++ pack (pendingBits bits) = pack bits := by
  have hlen : (wholeBytes bits).length = 8 * (bits.length / 8) := by
    rw [wholeBytes, List.length_take]
    omega
  rw [← pack_append _ _ (by omega), wholeBytes, pendingBits, List.take_append_drop]

theorem pack_wholeBytes_length (bits : BitString) : (pack (wholeBytes bits)).length = bits.length / 8 := by
  rw [pack_length, wholeBytes, List.length_take]
  omega

theorem pendingBits_length_lt (bits : BitString) : (pendingBits bits).length < 8 := by
  rw [pendingBits, List.length_drop]
  omega

/-- Ending a stream: the pending bits packed, whether there are any or not (spec/44_bitpacker.md R222). -/
theorem pkFlush_eq (s : State) (h : s.acc.length ≤ 8) :
    pkFlush s = { s with out := s.out ++ pack s.acc, lastLen := s.bitLen, bitLen := 0#32, acc := [] } := by
  rw [← pkFlush_out s h, pkFlush]
  split <;> rfl

/-- Appending two bit-strings one after the other is appending them joined. -/
theorem pkAppendAll_append (a b : BitString) (s : State) :
    pkAppendAll (a ++ b) s = pkAppendAll b (pkAppendAll a s) := by
  induction a generalizing s with
  | nil => rfl
  | cons x a ih => exact ih (pkAppend x s)

/-- A whole stream, from its first bit to `FLUSH`: its packing is sent and its length kept
(spec/44_bitpacker.md R225). -/
theorem pkFlush_pkAppendAll {s : State} (bits : BitString) (hacc : s.acc = []) (hlen : s.bitLen = 0#32) :
    pkFlush (pkAppendAll bits s) =
      { s with out := s.out ++ pack bits, lastLen := BitVec.ofNat 32 bits.length } := by
  have hpend := pendingBits_length_lt bits
  rw [pkAppendAll_eq _ _ (by simp [hacc]), pkFlush_eq]
  · simp [hacc, hlen, ← pack_wholeBytes_append_pendingBits bits, wholeBytes, pendingBits]
  · rw [hacc]
    exact Nat.le_of_lt hpend

/-- `ENC` of each symbol of a text whose codes are present and fit together appends the codes, joined
(spec/43_encoder.md R211). -/
theorem runCommands_enc {text : List Symbol} {s : State} (he : s.err = 0#8) (hct : ∀ x ∈ text, codeAt s.ct x ≠ [])
    (hfit : s.bitLen.toNat + (text.flatMap (codeAt s.ct)).length ≤ 2 ^ 32 - 1) :
    runCommands (text.map .enc) s = .next (pkAppendAll (text.flatMap (codeAt s.ct)) s) := by
  induction text generalizing s with
  | nil => rfl
  | cons x text ih =>
    rw [List.flatMap_cons, List.length_append] at hfit
    have hx : s.bitLen.toNat + (codeAt s.ct x).length ≤ 2 ^ 32 - 1 := by omega
    have hrest := ih (s := pkAppendAll (codeAt s.ct x) s) (by simpa using he)
      (by simpa using fun y hy => hct y (List.mem_cons_of_mem _ hy))
      (by rw [pkAppendAll_bitLen, toNat_add_ofNat hx, pkAppendAll_ct]; omega)
    rw [pkAppendAll_ct, ← pkAppendAll_append] at hrest
    exact runCommands_cons_eq_next.mpr ⟨_, exec_of_acts he rfl (.enc x (hct x List.mem_cons_self) hx), hrest⟩

/-- A sum over a text is the sum over all symbols of occurrences times value. -/
theorem sum_map_eq_sum_count_mul (text : List Symbol) (f : Symbol → Nat) :
    (text.map f).sum = (allSymbols.map fun x => text.count x * f x).sum := by
  rw [Finset.sum_list_map_count, ← List.sum_toFinset _ allSymbols_nodup]
  refine Finset.sum_subset (fun x _ => by simp) fun x _ hx => ?_
  simp [List.count_eq_zero.mpr (List.mem_toFinset.not.mp hx)]

/-! ### The table derived from a text -/

/-- After `TAB` of each of `seen`: there is no `LookupMiss`, and unless another fault is recorded each of them has a
count. -/
structure Tallied (seen : List Symbol) (s : State) : Prop where
  inv : s.Inv
  unit : s.hasTb = true
  noMiss : s.err ≠ 2#8
  counted : s.err = 0#8 → ∀ x ∈ seen, countAt s.ft x ≠ 0#32

/-- `TAB` counts its symbol and takes no count back: below the limit of `TOTAL` no count wraps. -/
theorem tallied_tab {seen : List Symbol} {sym : Symbol} {s t : State} (h : Tallied seen s)
    (ht : exec (.tab sym) s = .next t) : Tallied (seen ++ [sym]) t := by
  cases exec_does ht with
  | dropped _ he => exact ⟨h.inv, h.unit, h.noMiss, fun h0 => absurd h0 he⟩
  | faults _ c he hf =>
    cases hf with
    | illegalCommand _ hw => exact absurd (h.unit.symm.trans hw) (by simp)
    | countOverflow _ _ => exact ⟨inv_faulted h.inv _ _, h.unit, by simp [errCode], by simp [errCode]⟩
  | acts _ _ he hw ha =>
    cases ha with
    | tab _ hlt =>
      refine ⟨inv_countSymbol h.inv sym h.unit hlt, h.unit, h.noMiss, fun _ x hx => ?_⟩
      rw [countSymbol_ft, countAt_setCount]
      split
      · have hle := countAt_le_total h.inv sym
        have hlt32 := s.total.isLt
        have hone : (countAt s.ft sym + 1#32).toNat = (countAt s.ft sym).toNat + 1 := toNat_add_ofNat (by omega)
        exact fun e => by simp [e] at hone
      · next hne =>
        have hseen : x ∈ seen := by simpa [hne] using hx
        exact h.counted he x hseen

theorem tallied_run {text seen : List Symbol} {s t : State} (h : Tallied seen s)
    (ht : runCommands (text.map .tab) s = .next t) : Tallied (seen ++ text) t := by
  induction text generalizing seen s with
  | nil =>
    injection ht with ht
    simpa [ht] using h
  | cons x text ih =>
    obtain ⟨u, hu, ht⟩ := runCommands_cons_eq_next.mp ht
    simpa using ih (tallied_tab h hu) ht

/-- There is no `LookupMiss`, and unless another fault is recorded every symbol of the text has a code. -/
structure Encodable (text : List Symbol) (s : State) : Prop where
  noMiss : s.err ≠ 2#8
  present : s.err = 0#8 → ∀ x ∈ text, codeAt s.ct x ≠ []

/-- `BUILD` and `ASSIGN` give every counted symbol a code (spec/42_code_table.md R184 clause 1). -/
theorem Tallied.encodable {text : List Symbol} {s t : State} (h : Tallied text s)
    (ht : runCommands [.build, .assign] s = .next t) : Encodable text t := by
  obtain ⟨u, hu, ht⟩ := runCommands_cons_eq_next.mp ht
  rw [runCommands_singleton] at ht
  by_cases he : s.err = 0#8
  · obtain ⟨f, hf, -⟩ := buildForest_spec s.ft
    have hbuild := exec_of_acts (i := .build) he h.unit (.build f hf)
    obtain rfl : holdTree f s = u := Host.Outcome.next.inj (hbuild.symm.trans hu)
    have hassign :=
      exec_of_acts (i := .assign) ((holdTree_err f s).trans he) ((holdTree_hasTb f s).trans h.unit) .assign
    obtain rfl := Host.Outcome.next.inj (hassign.symm.trans ht)
    refine ⟨by simp [he], fun _ x hx => ?_⟩
    exact ((assignedCodes_codeList hf s).present_iff (observed_nodup s.ft)).mpr (mem_observed.mpr (h.counted he x hx))
  · obtain rfl : s = u := Host.Outcome.next.inj ((command_dropped _ he).symm.trans hu)
    obtain rfl : s = t := Host.Outcome.next.inj ((command_dropped _ he).symm.trans ht)
    exact ⟨h.noMiss, fun h0 => absurd h0 he⟩

/-- `ENC` of a symbol that has a code does not miss, and it changes no code. -/
theorem encodable_enc {text : List Symbol} {x : Symbol} {s t : State} (hx : x ∈ text) (h : Encodable text s)
    (ht : exec (.enc x) s = .next t) : Encodable text t := by
  cases exec_does ht with
  | dropped => exact h
  | faults _ c he hf =>
    cases hf with
    | illegalCommand _ hw => cases hw
    | lookupMiss _ hmiss => exact absurd hmiss (h.present he x hx)
    | encOverflow => exact ⟨by simp [errCode], by simp [errCode]⟩
  | acts _ _ _ _ ha =>
    cases ha with
    | enc => exact ⟨by simpa using h.noMiss, by simpa using h.present⟩

end Sys2Proof.Machine

open Sys2Proof Sys2Proof.Machine

/-! ### The statements about the encoder -/

/-- Settles O35: the two tests of `Acts` and `Faults`, then `pkAppendAll` in closed form. -/
theorem encAppendsTheCode : Obligations.EncAppendsTheCode := by
  refine fun sym s => ⟨rfl, fun he => ⟨fun hc => ?_, fun hc hlong => ?_, fun hc hfit hacc => ⟨?_, ?_, fun hcode => ?_⟩⟩⟩
  · exact exec_of_faults (i := .enc sym) he rfl (.lookupMiss sym hc)
  · exact exec_of_faults (i := .enc sym) he rfl (.encOverflow sym hc hlong)
  · rw [exec_of_acts he rfl (.enc sym hc hfit), pkAppendAll_eq _ _ hacc, BitVec.ofNat_add, BitVec.ofNat_toNat,
      BitVec.setWidth_eq]
    rfl
  · rw [pack_wholeBytes_length, List.length_append]
  · rw [pack_wholeBytes_length, List.length_append]
    omega

/-- Settles O42: the run appends the joined codes, and `FLUSH` ends a stream of them. -/
theorem encodingATextPacksItsCodes : Obligations.EncodingATextPacksItsCodes := by
  intro text s he hacc hlen hct hfit
  have hsum : (text.flatMap (codeAt s.ct)).length = (text.map fun x => (codeAt s.ct x).length).sum :=
    List.length_flatMap
  refine ⟨?_, hsum, hsum.trans (sum_map_eq_sum_count_mul text _)⟩
  have henc := runCommands_enc he hct (by simpa [hlen] using hfit)
  refine runCommands_append_eq_next.mpr ⟨_, henc, ?_⟩
  rw [runCommands_singleton, ← pkFlush_pkAppendAll _ hacc hlen]
  exact exec_of_acts ((pkAppendAll_err _ s).trans he) rfl .flush

/-- Settles O43: each symbol is counted, so it gets a code, and `ENC` finds it. -/
theorem ownTableNeverMisses : Obligations.OwnTableNeverMisses := by
  intro text s t hs he htb hrun
  obtain ⟨v, hv, ht⟩ := runCommands_append_eq_next.mp hrun
  obtain ⟨u, hu, hv⟩ := runCommands_append_eq_next.mp hv
  have hstart : Tallied [] s := ⟨hs, htb, by simp [he], by simp⟩
  have htable : Encodable text v := (tallied_run hstart hu).encodable hv
  refine (runCommands_keeps (P := Encodable text) (fun i hi a b ha hb => ?_) htable ht).noMiss
  obtain ⟨x, hx, rfl⟩ := List.mem_map.mp hi
  exact encodable_enc hx ha hb

end

section
/-! SUPPORT. The bits of `pack` and `unpack`, one bit appended, the end of a stream, and what a run of `ENC` and `PKBIT`
leaves. The statements of spec/44_bitpacker.md follow. -/

namespace Sys2Proof

/-- Behind an opcode of format B an operand above 1 is illegal (spec/30_encoding.md R98 clause 3). -/
theorem decode_formatB_illegal {hasTb : Bool} {op arg : BitVec 8} {i : Bool → Instr}
    (hop : decodeFields hasTb op arg = formatB arg i) (h : 2 ≤ arg.toNat) :
    decode hasTb (mkWord op arg) = .illegal .argNotBit :=
  (decode_mkWord hasTb op arg).trans (hop.trans (if_neg (Nat.not_le.mpr h)))

end Sys2Proof

namespace Sys2Proof.Machine

/-! ### The bits of a packing -/

theorem pack_getElem? {s : BitString} {i : Nat} (hi : i < (s.length + 7) / 8) :
    (pack s)[i]? = some (byteOf ((s.drop (8 * i)).take 8)) :=
  packBytes_getElem? _ i s hi

/-- Where the bits of a string stand in its packing; past its end the bits are 0 (spec/44_bitpacker.md R226). -/
theorem getLsbD_of_pack_getElem? {s : BitString} {i j : Nat} {B : Byte} (hj : j < 8) (hB : (pack s)[i]? = some B) :
    B.getLsbD (7 - j) = s.getD (8 * i + j) false := by
  have hi : i < (s.length + 7) / 8 := pack_length s ▸ (List.getElem?_eq_some_iff.mp hB).1
  obtain rfl := Option.some.inj ((pack_getElem? hi).symm.trans hB)
  rw [byteOf_getLsbD _ j hj, List.getD_eq_getElem?_getD, List.getElem?_take_of_lt hj, List.getElem?_drop,
    ← List.getD_eq_getElem?_getD]

@[simp] theorem unpack_length (B : List Byte) (len : Nat) : (unpack B len).length = len := by simp [unpack]

theorem unpack_getElem? {B : List Byte} {len k : Nat} {b : Byte} (hk : k < len) (hb : B[k / 8]? = some b) :
    (unpack B len)[k]? = some (b.getLsbD (7 - k % 8)) := by
  simp [unpack, hk, hb]

/-- Bit `k` comes back from the place `pack` put it in (spec/44_bitpacker.md R227). -/
theorem unpack_pack (s : BitString) : unpack (pack s) s.length = s := by
  refine List.ext_getElem? fun k => ?_
  by_cases hk : k < s.length
  · have hB := pack_getElem? (s := s) (i := k / 8) (by omega)
    rw [unpack_getElem? hk hB, getLsbD_of_pack_getElem? (Nat.mod_lt k (by omega)) hB, Nat.div_add_mod,
      List.getD_eq_getElem _ _ hk, List.getElem?_eq_getElem hk]
  · rw [List.getElem?_eq_none (by simpa using hk), List.getElem?_eq_none (by simpa using hk)]

/-! ### One bit, and the end of a stream -/

/-- The eighth bit of a byte sends it (spec/44_bitpacker.md R220). -/
theorem pkAppend_of_seven {s : State} (b : Bool) (h : s.acc.length = 7) : pkAppend b s = { s with
    out := s.out ++ [byteOf (s.acc ++ [b])], acc := [], bitLen := s.bitLen + 1#32 } :=
  if_pos (by simp [h])

/-- Any other bit stays pending (spec/44_bitpacker.md R220). -/
theorem pkAppend_of_ne_seven {s : State} (b : Bool) (h : s.acc.length ≠ 7) : pkAppend b s = { s with
    acc := s.acc ++ [b], bitLen := s.bitLen + 1#32 } :=
  if_neg (by simpa using h)

theorem pkFlush_of_pending {s : State} (h : s.acc ≠ []) : pkFlush s = { s with
    out := s.out ++ [byteOf s.acc], lastLen := s.bitLen, bitLen := 0#32, acc := [] } :=
  if_pos (List.length_pos_iff.mpr h)

theorem pkFlush_of_nil {s : State} (h : s.acc = []) : pkFlush s = { s with
    lastLen := s.bitLen, bitLen := 0#32, acc := [] } :=
  if_neg (by simp [h])

/-! ### A run of appending commands -/

/-- An `ENC` or `PKBIT` that leaves no fault recorded has appended its bits, and the length of the stream did not
wrap. -/
theorem eq_pkAppendAll_of_exec {i : Instr} {s t : State} (hi : appendsBits i = true) (h : exec i s = .next t)
    (ht : t.err = 0#8) :
    t = pkAppendAll (streamBits s.ct i) s ∧ s.bitLen.toNat + (streamBits s.ct i).length ≤ 2 ^ 32 - 1 := by
  cases exec_does h with
  | reset | rdsr => cases hi
  | dropped _ he => exact absurd ht he
  | faults _ c => cases c <;> cases ht
  | acts _ _ _ _ ha =>
    cases ha with
    | enc _ _ hfit => exact ⟨rfl, hfit⟩
    | pkbit _ hlt =>
      have hlt32 := s.bitLen.isLt
      refine ⟨rfl, ?_⟩
      rw [streamBits, List.length_singleton]
      omega
    | _ => cases hi

/-- A run of `ENC` and `PKBIT` commands that leaves no fault recorded has appended their bits, joined, and the length of
the stream did not wrap. -/
theorem eq_pkAppendAll_of_runCommands {is : List Instr} {s t : State} (his : ∀ i ∈ is, appendsBits i = true)
    (h : runCommands is s = .next t) (ht : t.err = 0#8) :
    t = pkAppendAll (is.flatMap (streamBits s.ct)) s ∧
      s.bitLen.toNat + (is.flatMap (streamBits s.ct)).length ≤ 2 ^ 32 - 1 := by
  induction is generalizing s with
  | nil =>
    injection h with h
    exact ⟨h.symm, Nat.le_sub_one_of_lt s.bitLen.isLt⟩
  | cons i is ih =>
    obtain ⟨u, hu, hrun⟩ := runCommands_cons_eq_next.mp h
    obtain ⟨rfl, hfit⟩ := ih (fun j hj => his j (List.mem_cons_of_mem _ hj)) hrun
    rw [pkAppendAll_err] at ht
    obtain ⟨rfl, hi⟩ := eq_pkAppendAll_of_exec (his i List.mem_cons_self) hu ht
    rw [pkAppendAll_bitLen, toNat_add_ofNat hi, pkAppendAll_ct] at hfit
    rw [pkAppendAll_ct, List.flatMap_cons, pkAppendAll_append, List.length_append]
    exact ⟨rfl, by omega⟩

/-- The open stream before `FLUSH` (spec/44_bitpacker.md R223). -/
theorem streamIs_pkAppendAll {s : State} {bits : BitString} (hacc : s.acc = []) (hlen : s.bitLen = 0#32)
    (hfit : bits.length ≤ 2 ^ 32 - 1) : (pkAppendAll bits s).StreamIs s.out bits := by
  refine ⟨?_, ?_, ?_⟩
  · simp [pkAppendAll_eq, hacc, wholeBytes]
  · simp [pkAppendAll_eq, hacc, pendingBits]
  · rw [pkAppendAll_bitLen, toNat_add_ofNat (by simpa [hlen] using hfit), hlen, BitVec.toNat_zero, Nat.zero_add]

/-- `FLUSH` completes the packing of the open stream and keeps its length (spec/44_bitpacker.md R223). -/
theorem pkFlush_of_streamIs {s : State} {done : List Byte} {bits : BitString} (h : s.StreamIs done bits) :
    pkFlush s = { s with
      out := done ++ pack bits, lastLen := BitVec.ofNat 32 bits.length, bitLen := 0#32, acc := [] } := by
  obtain ⟨hout, hpend, hlen⟩ := h
  have hshort : s.acc.length ≤ 8 := hpend ▸ Nat.le_of_lt (pendingBits_length_lt bits)
  rw [pkFlush_eq s hshort, hout, hpend, List.append_assoc, pack_wholeBytes_append_pendingBits, ← hlen,
    BitVec.ofNat_toNat, BitVec.setWidth_eq]

end Sys2Proof.Machine

open Sys2Proof Sys2Proof.Machine

/-! ### The statements about the bit packer -/

/-- Settles O39: byte `i` is `byte_of` of the eight bits from `8i` on. -/
theorem packPlacesTheBits : Obligations.PackPlacesTheBits :=
  fun s => ⟨pack_length s, fun _ _ _ hj hB => getLsbD_of_pack_getElem? hj hB⟩

/-- Settles O40: `unpack` reads each bit where `pack` puts it. -/
theorem unpackingThePackingGivesTheBits : Obligations.UnpackingThePackingGivesTheBits :=
  ⟨unpack_pack, fun B len _ => ⟨unpack_length B len, fun _ _ hk hb => unpack_getElem? hk hb⟩, rfl, rfl⟩

/-- Settles O41: the run is one append of the joined bits, which `FLUSH` completes. -/
theorem streamingPackerIsPack : Obligations.StreamingPackerIsPack := by
  intro is s t his _ hacc hlen hrun ht
  obtain ⟨rfl, hfit⟩ := eq_pkAppendAll_of_runCommands his hrun ht
  rw [hlen, BitVec.toNat_zero, Nat.zero_add] at hfit
  have hstream := streamIs_pkAppendAll hacc hlen hfit
  have ⟨hout, hpend, hbits⟩ := hstream
  refine ⟨hout, hpend, hbits, ?_, pack_length _⟩
  rw [exec_of_acts ht rfl .flush, pkFlush_of_streamIs hstream]

/-- Settles O36: the fault at the limit; below it the byte is complete or it is not. -/
theorem pkbitAppendsTheBit : Obligations.PkbitAppendsTheBit := by
  refine ⟨rfl, rfl, fun _ _ hx => ⟨_, decode_formatB_illegal (i := .pkbit) rfl hx⟩, fun b s he _ =>
    ⟨fun hmax => ?_, fun hlt h7 => ?_, fun hlt h7 => ?_⟩⟩
  · exact exec_of_faults he rfl (.pkbitOverflow b hmax)
  · rw [exec_of_acts he rfl (.pkbit b hlt), pkAppend_of_seven b h7]
  · rw [exec_of_acts he rfl (.pkbit b hlt), pkAppend_of_ne_seven b h7]

/-- Settles O37: the two branches of `pkFlush`, and the bits of `byteOf`. -/
theorem flushEndsTheStream : Obligations.FlushEndsTheStream := by
  refine ⟨rfl, byteOf_getLsbD, fun s he => ?_⟩
  rw [exec_of_acts he rfl .flush]
  exact ⟨fun h => by rw [pkFlush_of_pending h], fun h => by rw [pkFlush_of_nil h]⟩

end

section
/-! SUPPORT. What a word can fault with and when, the causes of the table read off the word, the kinds of step, and what
the fault state lets through. The statements of spec/60_exceptions.md follow. -/

namespace Sys2Proof.Machine

/-! ### The faults of a word -/

/-- The word faults with cause `c` when no fault is recorded: it is illegal (spec/60_exceptions.md R241), or the command
it decodes to faults. -/
inductive WordFaults (s : State) (w : Word16) : FaultCode → Prop where
  | illegal (why) (h : decode s.hasTb w = .illegal why) : WordFaults s w .illegalCommand
  | command (i c) (h : decode s.hasTb w = .command i) (hf : Faults s i c) : WordFaults s w c

theorem errCode_ne_zero (c : FaultCode) : errCode c ≠ 0#8 := by cases c <;> decide

theorem errCode_injective {c d : FaultCode} (h : errCode c = errCode d) : c = d := by
  revert h
  cases c <;> cases d <;> decide

/-- Every code but that of `QueueEmpty` is at most 6. -/
theorem errCode_toNat_le_six {c : FaultCode} (h : c ≠ .queueEmpty) : (errCode c).toNat ≤ 6 := by
  cases c
  case queueEmpty => exact absurd rfl h
  all_goals decide

theorem WordFaults.ne_queueEmpty {s : State} {w : Word16} {c : FaultCode} (h : WordFaults s w c) : c ≠ .queueEmpty := by
  cases h with
  | illegal => simp
  | command _ _ _ hf => exact hf.ne_queueEmpty

section
variable {s t : State} {w : Word16} (he : s.err = 0#8)
include he

/-- A cause the word has is the one it raises, and the word is what is recorded (spec/60_exceptions.md R240). -/
theorem execWord_of_wordFaults {c : FaultCode} (hf : WordFaults s w c) : execWord w s = .next (faulted c w s) := by
  cases hf with
  | illegal why h => exact (execWord_illegal h).trans (illegalWord_faults he)
  | command i _ h hf =>
    obtain ⟨hw, rfl⟩ := decode_eq_command_iff.mp h
    exact (execWord_command h).trans (exec_of_faults he hw hf)

/-- A word executed with no fault recorded leaves none, or faults with a cause it has. -/
theorem execWord_cases (h : execWord w s = .next t) : t.err = 0#8 ∨ ∃ c, WordFaults s w c ∧ t = faulted c w s := by
  cases hd : decode s.hasTb w with
  | illegal why =>
    have hf := WordFaults.illegal why hd
    rw [execWord_of_wordFaults he hf] at h
    injection h with h
    exact .inr ⟨_, hf, h.symm⟩
  | command i =>
    rw [execWord_command hd] at h
    cases exec_does h with
    | reset => exact .inl rfl
    | rdsr => exact .inl he
    | dropped _ hne => exact absurd he hne
    | faults _ c _ hf =>
      obtain ⟨-, rfl⟩ := decode_eq_command_iff.mp hd
      exact .inr ⟨c, .command _ c hd hf, rfl⟩
    | acts _ _ _ _ ha => exact .inl ((acts_err ha).1.trans he)

/-- `ERR` names the cause the word has. -/
theorem execWord_err_eq_iff (h : execWord w s = .next t) (c : FaultCode) : t.err = errCode c ↔ WordFaults s w c := by
  constructor
  · intro hc
    rcases execWord_cases he h with h0 | ⟨d, hf, rfl⟩
    · exact absurd (hc.symm.trans h0) (errCode_ne_zero c)
    · exact errCode_injective hc ▸ hf
  · intro hf
    rw [execWord_of_wordFaults he hf] at h
    injection h with h
    exact h ▸ rfl

end

/-! ### The rows of the table -/

section
variable {s : State} {w : Word16}

/-- A word that decodes to a command is legal on the build, so the command does not fault as an illegal one. -/
theorem wordFaults_illegalCommand_iff :
    WordFaults s w .illegalCommand ↔ ∃ why, decode s.hasTb w = .illegal why := by
  constructor
  · rintro (⟨why, hd⟩ | ⟨i, _, hd, hf⟩)
    · exact ⟨why, hd⟩
    · obtain ⟨hw, -⟩ := decode_eq_command_iff.mp hd
      cases hf with
      | illegalCommand _ hno => exact absurd hw (by simp [hno])
  · rintro ⟨why, hd⟩
    exact .illegal why hd

theorem wordFaults_lookupMiss_iff :
    WordFaults s w .lookupMiss ↔ ∃ sym, decode s.hasTb w = .command (.enc sym) ∧ codeAt s.ct sym = [] :=
  ⟨fun | .command (.enc sym) _ hd (.lookupMiss _ hc) => ⟨sym, hd, hc⟩,
    fun ⟨sym, hd, hc⟩ => .command _ _ hd (.lookupMiss sym hc)⟩

theorem wordFaults_emptyCode_iff :
    WordFaults s w .emptyCode ↔ ∃ sym, decode s.hasTb w = .command (.ctset sym) ∧ s.path = [] :=
  ⟨fun | .command (.ctset sym) _ hd (.emptyCode _ hp) => ⟨sym, hd, hp⟩,
    fun ⟨sym, hd, hp⟩ => .command _ _ hd (.emptyCode sym hp)⟩

theorem wordFaults_codeTooLong_iff :
    WordFaults s w .codeTooLong ↔ ∃ b, decode s.hasTb w = .command (.pbit b) ∧ s.path.length = 255 :=
  ⟨fun | .command (.pbit b) _ hd (.codeTooLong _ hp) => ⟨b, hd, hp⟩,
    fun ⟨b, hd, hp⟩ => .command _ _ hd (.codeTooLong b hp)⟩

theorem wordFaults_countOverflow_iff :
    WordFaults s w .countOverflow ↔ ∃ sym, decode s.hasTb w = .command (.tab sym) ∧ s.total.toNat = 2 ^ 32 - 1 :=
  ⟨fun | .command (.tab sym) _ hd (.countOverflow _ ht) => ⟨sym, hd, ht⟩,
    fun ⟨sym, hd, ht⟩ => .command _ _ hd (.countOverflow sym ht)⟩

/-- Both appending commands can pass the limit of `BITLEN`. -/
theorem wordFaults_lengthOverflow_iff : WordFaults s w .lengthOverflow ↔
    (∃ b, decode s.hasTb w = .command (.pkbit b) ∧ s.bitLen.toNat = 2 ^ 32 - 1) ∨
    ∃ sym, decode s.hasTb w = .command (.enc sym) ∧ codeAt s.ct sym ≠ [] ∧
      s.bitLen.toNat + (codeAt s.ct sym).length > 2 ^ 32 - 1 := by
  constructor
  · rintro (_ | ⟨_, _, hd, hf⟩)
    cases hf with
    | pkbitOverflow b hl => exact .inl ⟨b, hd, hl⟩
    | encOverflow sym hc hl => exact .inr ⟨sym, hd, hc, hl⟩
  · rintro (⟨b, hd, hl⟩ | ⟨sym, hd, hc, hl⟩)
    · exact .command _ _ hd (.pkbitOverflow b hl)
    · exact .command _ _ hd (.encOverflow sym hc hl)

end

/-! ### The three kinds of step -/

/-- A step idles, resets the engine, or executes the oldest word. -/
theorem step_cases {s t : State} (h : step s = .next t) :
    (s.cmd = [] ∧ t = s) ∨ (∃ rest, s.cmd = .rst :: rest ∧ t = engineReset { s with cmd := rest }) ∨
      ∃ w rest, s.cmd = .word w :: rest ∧ execWord w { s with cmd := rest } = .next t := by
  match hc : s.cmd with
  | [] =>
    rw [step_idle hc] at h
    injection h with h
    exact .inl ⟨rfl, h.symm⟩
  | .rst :: rest =>
    rw [step_rst hc] at h
    injection h with h
    exact .inr (.inl ⟨rest, rfl, h.symm⟩)
  | .word w :: rest => exact .inr (.inr ⟨w, rest, rfl, (step_word hc).symm.trans h⟩)

/-! ### The fault state -/

section
variable {s t : State} (he : s.err ≠ 0#8)
include he

/-- In the fault state a command that is neither `RESET` nor `RDSR` changes nothing (spec/60_exceptions.md R252). -/
theorem exec_dropped {i : Instr} (hi : i ≠ .reset) (hr : ∀ r, i ≠ .rdsr r) : exec i s = .next s := by
  obtain ⟨t, ht, -⟩ := exec_next i s
  cases exec_does ht with
  | reset => exact absurd rfl hi
  | rdsr r => exact absurd rfl (hr r)
  | dropped => exact ht
  | faults _ _ h0 | acts _ _ h0 => exact absurd h0 he

/-- A word executed in the fault state resets the engine or keeps what is recorded (spec/60_exceptions.md R252,
R255). -/
theorem execWord_in_fault_state {w : Word16} (h : execWord w s = .next t) :
    (w = 0x0100#16 ∧ t = engineReset s) ∨ (t.err = s.err ∧ t.errInfo = s.errInfo) := by
  cases hd : decode s.hasTb w with
  | illegal why =>
    rw [execWord_illegal hd, illegalWord_dropped he] at h
    injection h with h
    exact .inr (h ▸ ⟨rfl, rfl⟩)
  | command i =>
    rw [execWord_command hd] at h
    cases exec_does h with
    | reset => exact .inl ⟨(decode_eq_command_iff.mp hd).2, rfl⟩
    | rdsr | dropped => exact .inr ⟨rfl, rfl⟩
    | faults _ _ h0 | acts _ _ h0 => exact absurd h0 he

/-- A step in the fault state resets the engine, by the word 0x0100 or `rst`, or keeps what is recorded
(spec/60_exceptions.md R254, R255). -/
theorem step_in_fault_state (h : step s = .next t) :
    (∃ rest, (s.cmd = .word 0x0100#16 :: rest ∨ s.cmd = .rst :: rest) ∧ t = engineReset { s with cmd := rest }) ∨
      (t.err = s.err ∧ t.errInfo = s.errInfo) := by
  rcases step_cases h with ⟨-, rfl⟩ | ⟨rest, hc, rfl⟩ | ⟨w, rest, hc, h⟩
  · exact .inr ⟨rfl, rfl⟩
  · exact .inl ⟨rest, .inr hc, rfl⟩
  · refine (execWord_in_fault_state (s := { s with cmd := rest }) he h).imp_left ?_
    rintro ⟨rfl, rfl⟩
    exact ⟨rest, .inl hc, rfl⟩

end

end Sys2Proof.Machine

open Sys2Proof Sys2Proof.Machine

/-! ### The statements about faults -/

/-- Settles O45: `ERR` names the cause the word has, row by row, and no word has the cause `QueueEmpty`. -/
theorem faultCausesAreTheTable : Obligations.FaultCausesAreTheTable := by
  intro s t w he h
  have hrow := execWord_err_eq_iff he h
  refine ⟨(hrow .illegalCommand).trans wordFaults_illegalCommand_iff,
    (hrow .lookupMiss).trans wordFaults_lookupMiss_iff, (hrow .emptyCode).trans wordFaults_emptyCode_iff,
    (hrow .codeTooLong).trans wordFaults_codeTooLong_iff, (hrow .countOverflow).trans wordFaults_countOverflow_iff,
    (hrow .lengthOverflow).trans wordFaults_lengthOverflow_iff, ?_⟩
  rcases execWord_cases he h with h0 | ⟨c, hf, rfl⟩
  · exact ⟨by simp [h0], fun hne => absurd h0 hne⟩
  · exact ⟨errCode_toNat_le_six hf.ne_queueEmpty, fun _ => rfl⟩

/-- Settles O46: idling and `rst` record no fault, and a word that does leaves `faulted`. -/
theorem faultsArePrecise : Obligations.FaultsArePrecise := by
  intro s t he h hne
  rcases step_cases h with ⟨-, rfl⟩ | ⟨rest, -, rfl⟩ | ⟨w, rest, hc, h⟩
  · exact absurd he hne
  · exact absurd (engineReset_err _) hne
  · rcases execWord_cases (s := { s with cmd := rest }) he h with h0 | ⟨c, -, rfl⟩
    · exact absurd h0 hne
    · exact ⟨w, rest, hc, rfl, bne_iff_ne.mpr hne⟩

/-- Settles O47: a command but `RESET` and `RDSR` is dropped, and so is an illegal word. -/
theorem faultStateDropsOtherWords : Obligations.FaultStateDropsOtherWords := by
  refine fun s w he => ⟨execWord_command, fun r => execWord_command, fun hreset hrdsr => ?_⟩
  cases hd : decode s.hasTb w with
  | command i =>
    rw [execWord_command hd]
    exact exec_dropped he (fun e => hreset (e ▸ hd)) fun r e => hrdsr r (e ▸ hd)
  | illegal why => rw [execWord_illegal hd, illegalWord_dropped he]

/-- Settles O48: the step resets the engine, since otherwise the fault stays recorded. -/
theorem onlyResetLeavesTheFaultState : Obligations.OnlyResetLeavesTheFaultState := by
  intro s t he h ht
  rcases step_in_fault_state he h with ⟨rest, hc, rfl⟩ | ⟨herr, -⟩
  · exact ⟨rest, hc, rfl⟩
  · exact absurd (herr.symm.trans ht) he

/-- Settles O49: the step keeps what is recorded, since a reset would leave the fault state. -/
theorem theFirstFaultIsKept : Obligations.TheFirstFaultIsKept := by
  intro s t he h ht
  rcases step_in_fault_state he h with ⟨rest, -, rfl⟩ | hkept
  · exact absurd (engineReset_err _) ht
  · exact hkept

/-- Settles O11: an idle step. -/
theorem idleEngineKeepsItsState : Obligations.IdleEngineKeepsItsState := fun _ => step_idle

/-- Settles O51: each event is an effect of its command, at the value of the state that the clause names. -/
theorem nonFaultEventsDoNotFault : Obligations.NonFaultEventsDoNotFault := by
  intro s he htb
  obtain ⟨f, hf, -⟩ := buildForest_spec s.ft
  refine ⟨fun h0 => ?build, fun ht => ?assign, fun hacc hlen => ?flush, fun x => ((ctgetSendsTheCode x s).2.1 he).2,
    fun x h0 => ?fget, fun x hp _ => ?ctset, fun x h1 => ?oneSymbol⟩
  case build =>
    refine ⟨_, exec_of_acts he htb (.build f hf), (holdTree_err f s).trans he, ?_⟩
    rw [holdTree_of_queue_nil (buildForest_of_observed_nil hf h0).2]
  case assign =>
    refine ⟨_, exec_of_acts he htb .assign, he, fun x => ?_⟩
    rw [tbDiscard_ct, assignedCodes_of_null ht]
    exact codeAt_noCodes x
  case flush =>
    rw [exec_of_acts he rfl .flush, pkFlush_of_nil hacc]
    simp only [hacc, hlen]
  case fget =>
    rw [exec_of_acts (i := .fget x) he htb (.fget x), h0]
    rfl
  case ctset =>
    exact ⟨_, exec_of_acts he rfl (.ctset x hp), he, (codeAt_setCode s.ct x x s.path).trans (if_pos rfl)⟩
  case oneSymbol =>
    have he' : (holdTree f s).err = 0#8 := (holdTree_err f s).trans he
    refine ⟨_, _, exec_of_acts he htb (.build f hf), exec_of_acts he' ((holdTree_hasTb f s).trans htb) .assign, he', ?_⟩
    rw [tbDiscard_ct, assignedCodes_holdTree_singleton hf h1, storeCodes, storeCodes, codeAt_setCode, if_pos rfl]

end

section
/-! SUPPORT. The open stream as one append of its bits, and what a command does to it. The statement of
spec/70_reset_and_hazards.md R294 follows. -/

namespace Sys2Proof.Machine

/-- A command that is neither `ENC` nor `PKBIT` has no bits to append (spec/44_bitpacker.md R223). -/
theorem streamBits_of_appendsBits_eq_false {i : Instr} (ct : Vector BitString 256) (h : appendsBits i = false) :
    streamBits ct i = [] := by
  cases i with
  | enc | pkbit => cases h
  | _ => rfl

section
variable {s t : State} {done : List Byte} {bits : BitString} (hs : s.StreamIs done bits)
include hs

/-- The open stream is one append of its bits behind the streams ended before (spec/44_bitpacker.md R223). -/
theorem pkAppendAll_of_streamIs : pkAppendAll bits { s with out := done, acc := [], bitLen := 0#32 } = s := by
  obtain ⟨hout, hpend, hlen⟩ := hs
  rw [pkAppendAll_eq _ _ (Nat.zero_le _)]
  simp only [List.nil_append, BitVec.zero_add, ← hlen, BitVec.ofNat_toNat, BitVec.setWidth_eq]
  rw [hlen, ← wholeBytes, ← pendingBits, ← hout, ← hpend]

/-- Bits appended behind the open stream lengthen it, since the two appends are one. -/
theorem streamIs_append {c : BitString} (hfit : s.bitLen.toNat + c.length ≤ 2 ^ 32 - 1) :
    (pkAppendAll c s).StreamIs done (bits ++ c) := by
  have ⟨_, _, hlen⟩ := hs
  rw [← pkAppendAll_of_streamIs hs, ← pkAppendAll_append]
  exact streamIs_pkAppendAll rfl rfl (by rwa [List.length_append, ← hlen])

/-- `FLUSH` opens an empty stream behind the packing of the one it ends (spec/44_bitpacker.md R222, R223). -/
theorem streamIs_pkFlush : (pkFlush s).StreamIs (done ++ pack bits) [] := by
  rw [pkFlush_of_streamIs hs]
  exact ⟨(List.append_nil _).symm, rfl, rfl⟩

/-- Where the packer's registers and `OUT` are kept, the stream is. -/
theorem streamIs_of_eq (hacc : t.acc = s.acc) (hlen : t.bitLen = s.bitLen) (hout : t.out = s.out) :
    t.StreamIs done bits := by
  rwa [State.StreamIs, hacc, hlen, hout]

end

end Sys2Proof.Machine

open Sys2Proof Sys2Proof.Machine

/-! ### The statement about the streams sent -/

/-- Settles O44: `ENC` and `PKBIT` append their bits, `FLUSH` ends the stream, and the other commands write neither the
packer's registers nor `OUT`. -/
theorem everyCommandKeepsTheStream : Obligations.EveryCommandKeepsTheStream := by
  intro done bits i s t hs he h ht hreset
  obtain ⟨hregs, hlast, -⟩ := packerAndFaultRegisterWriters i s t h hreset
  refine ⟨fun hflush => ⟨?_, hlast hflush⟩, ?flush⟩
  case flush =>
    rintro rfl
    have ⟨_, _, hlen⟩ := hs
    rw [exec_of_acts he rfl .flush] at h
    injection h with h
    rw [← h, pkFlush_lastLen]
    exact ⟨streamIs_pkFlush hs, hlen⟩
  cases hi : appendsBits i with
  | true =>
    obtain ⟨rfl, hfit⟩ := eq_pkAppendAll_of_exec hi h ht
    exact streamIs_append hs hfit
  | false =>
    have henc : ∀ sym, i ≠ .enc sym := by rintro _ rfl; cases hi
    have hpkbit : ∀ b, i ≠ .pkbit b := by rintro _ rfl; cases hi
    obtain ⟨hacc, hlen⟩ := hregs henc hpkbit hflush
    obtain ⟨-, -, -, hout, -⟩ := streamsOnlyGrow i s t h
    rw [streamBits_of_appendsBits_eq_false s.ct hi, List.append_nil]
    exact streamIs_of_eq hs hacc hlen (hout henc hpkbit hflush)

end
